-- ==== Sys2Proof/Word.lean ====
section
/-! DEFINITION. The two word widths of the core: `DATA_WIDTH` = 8 and `ADDR_WIDTH` = 16 (00_scope R5). -/

namespace Sys2Proof

/-- A byte: 8 bits, bit 7 the most significant (R7). -/
abbrev Byte := BitVec 8

/-- A word: 16 bits, bit 15 the most significant (R7); an address or the program counter. -/
abbrev Word := BitVec 16

end Sys2Proof
end

