-- ==== Sys2Proof/Syntax.lean ====
section
/-! DEFINITION. The instructions as abstract terms: the closed set of eight instruction values (R74), the operand
bytes of each addressing mode (R50 to R54), and `Instr`, one constructor per row of `spec/opcode_table.json`. -/

namespace Sys2Proof

/-- The two operations of the ALU (R74, R96). -/
inductive Operation where
  | inc
  | dec
deriving DecidableEq, Repr

/-- The four addressing modes; the resolver has exactly these (R74, R92). -/
inductive Mode where
  | zp
  | zpi
  | abs
  | absi
deriving DecidableEq, Repr

/-- An instruction value: what a populated dispatch-table entry holds (R74). -/
structure InstrValue where
  operation : Operation
  mode : Mode
deriving DecidableEq, Repr

/-- The operand bytes of one instruction, in fetch order (R50 to R54). All are literal bytes of the instruction:
an index is never a register (R87, R91). -/
inductive Operands where
  | zp (zp : Byte)
  | zpi (base index : Byte)
  | abs (low high : Byte)
  | absi (low high index : Byte)
deriving DecidableEq, Repr

/-- The instructions, one constructor per row of the opcode table. -/
inductive Instr where
  /-- INC ZP (R101). -/
  | incZp (zp : Byte)
  /-- INC ZPI (R102). -/
  | incZpi (base index : Byte)
  /-- INC ABS (R103). -/
  | incAbs (low high : Byte)
  /-- INC ABSI (R104). -/
  | incAbsi (low high index : Byte)
  /-- DEC ZP (R106). -/
  | decZp (zp : Byte)
  /-- DEC ZPI (R107). -/
  | decZpi (base index : Byte)
  /-- DEC ABS (R108). -/
  | decAbs (low high : Byte)
  /-- DEC ABSI (R109). -/
  | decAbsi (low high index : Byte)
deriving DecidableEq, Repr

/-- The instruction value a term is an example of (R74). -/
def Instr.value : Instr → InstrValue
  | .incZp _ => ⟨.inc, .zp⟩
  | .incZpi _ _ => ⟨.inc, .zpi⟩
  | .incAbs _ _ => ⟨.inc, .abs⟩
  | .incAbsi _ _ _ => ⟨.inc, .absi⟩
  | .decZp _ => ⟨.dec, .zp⟩
  | .decZpi _ _ => ⟨.dec, .zpi⟩
  | .decAbs _ _ => ⟨.dec, .abs⟩
  | .decAbsi _ _ _ => ⟨.dec, .absi⟩

end Sys2Proof
end

