-- ==== Sys2Proof/Config.lean ====
section
/-! DEFINITION. What one implementation fixes: the type of its dispatch table (the parameter `DT` of R5), and the
values the spec leaves free, as constants without a body. -/

namespace Sys2Proof

/-- A dispatch table as plain data: the registered opcode bytes with their instruction values. A byte that is not
listed is illegal, so the map it stands for is total (R75). Every machine carries its own table, unchanged by every
step; a claim about all states is a claim about all tables (notes/assumptions/1.md). -/
abbrev DispatchTable := List (Byte × InstrValue)

/-- FREE VALUE: the byte the cell at `EA` holds after the n-th failed data write. "Whether the cell at `EA` holds the
old byte, the new byte or anything else after a failed write is the bus's affair" (R121, U8; notes/assumptions/6.md). -/
opaque Config.failedWriteCell : Nat → Byte

/-- FREE VALUE: bit 5 of the packed status byte at the n-th draw; "no rule reads or writes it" (R15, U7;
notes/assumptions/10.md). -/
opaque Config.statusBit5 : Nat → Bool

end Sys2Proof
end

