-- ==== Sys2Proof/WellFormed.lean ====
section
/-! DEFINITION. The two well-formedness checks. Operand bytes need none: "All 256 values of zp, base, index, low and
high are legal" (R59) and the byte type has no other value. -/

namespace Sys2Proof

/-- The canonical form of a table: opcode bytes strictly rising. It makes the table a function (one entry a byte, R75,
R76) and equal tables equal data, whatever the order of registration (D10). -/
def DispatchTable.wf : DispatchTable → Bool
  | [] => true
  | [_] => true
  | (k, _) :: (k', v') :: rest =>
    decide (k.toNat < k'.toNat) && DispatchTable.wf ((k', v') :: rest)

/-- An instruction is well formed on a machine when some opcode byte of its table spells it (R56, R58): otherwise no
byte sequence of that machine is this instruction. -/
def Instr.wf (dt : DispatchTable) (i : Instr) : Bool :=
  dt.any fun e => decide (e.2 = i.value)

end Sys2Proof
end

