-- ==== Sys2Proof/Decode.lean ====
section
/-! DEFINITION. The decoder, total on any byte list and rejecting by name, the default dispatch table (R57), and after
them the encoder, written from the same tables of 30_encoding. -/

namespace Sys2Proof

/-- Why a byte list is no instruction. -/
inductive DecodeError where
  /-- The opcode byte is unregistered (R58). -/
  | illegalOpcode (op : Byte)
  /-- The list ends before the instruction does (a property of the list; the core's memory never ends, R63). -/
  | truncated
deriving DecidableEq, Repr

/-- The dispatch table as a function: one answer for each of the 256 bytes, `none` for an illegal opcode (R56, R75). -/
def DispatchTable.lookup : DispatchTable → Byte → Option InstrValue
  | [], _ => none
  | (k, v) :: rest, op => if k = op then some v else DispatchTable.lookup rest op

/-- The opcode byte of each instruction value in the default table (R57). Only 0xC6 is the source's; the other seven
are decision D1 (notes/assumptions/1.md). -/
def defaultOpcode : InstrValue → Byte
  | ⟨.inc, .zp⟩ => 0xE6
  | ⟨.inc, .zpi⟩ => 0xF6
  | ⟨.inc, .abs⟩ => 0xEE
  | ⟨.inc, .absi⟩ => 0xFE
  | ⟨.dec, .zp⟩ => 0xC6
  | ⟨.dec, .zpi⟩ => 0xD6
  | ⟨.dec, .abs⟩ => 0xCE
  | ⟨.dec, .absi⟩ => 0xDE

/-- The default dispatch table (R57), in canonical form. -/
def defaultTable : DispatchTable :=
  [(0xC6, ⟨.dec, .zp⟩), (0xCE, ⟨.dec, .abs⟩), (0xD6, ⟨.dec, .zpi⟩), (0xDE, ⟨.dec, .absi⟩),
   (0xE6, ⟨.inc, .zp⟩), (0xEE, ⟨.inc, .abs⟩), (0xF6, ⟨.inc, .zpi⟩), (0xFE, ⟨.inc, .absi⟩)]

/-- `OPERAND_BYTES` (R5, R50). -/
def Mode.operandBytes : Mode → Nat
  | .zp => 1
  | .zpi => 2
  | .abs => 2
  | .absi => 3

/-- The length of an instruction, told by its opcode byte alone (R60). -/
def InstrValue.length (v : InstrValue) : Nat := 1 + v.mode.operandBytes

/-- The instruction an operation and its operand bytes make (R74). -/
def Instr.ofOperands : Operation → Operands → Instr
  | .inc, .zp zp => .incZp zp
  | .inc, .zpi base index => .incZpi base index
  | .inc, .abs low high => .incAbs low high
  | .inc, .absi low high index => .incAbsi low high index
  | .dec, .zp zp => .decZp zp
  | .dec, .zpi base index => .decZpi base index
  | .dec, .abs low high => .decAbs low high
  | .dec, .absi low high index => .decAbsi low high index

/-- Read the operand bytes of a mode from the front of a byte list, in the order of the formats R51 to R54; `none`
when the list is too short. -/
def Operands.ofBytes : Mode → List Byte → Option (Operands × List Byte)
  | .zp, address :: rest => some (.zp address, rest)
  | .zp, [] => none
  | .zpi, base :: index :: rest => some (.zpi base index, rest)
  | .zpi, [_] => none
  | .zpi, [] => none
  | .abs, low :: high :: rest => some (.abs low high, rest)
  | .abs, [_] => none
  | .abs, [] => none
  | .absi, low :: high :: index :: rest => some (.absi low high index, rest)
  | .absi, [_, _] => none
  | .absi, [_] => none
  | .absi, [] => none

/-- Decode one instruction from the front of a byte list: the whole opcode byte selects the instruction value (R56),
its mode the operand bytes (R50). Answers the instruction and the bytes after it. -/
def decode (dt : DispatchTable) : List Byte → Except DecodeError (Instr × List Byte)
  | [] => .error .truncated
  | op :: bytes =>
    match dt.lookup op with
    | none => .error (.illegalOpcode op)
    | some v =>
      match Operands.ofBytes v.mode bytes with
      | none => .error .truncated
      | some (o, rest) => .ok (Instr.ofOperands v.operation o, rest)

/-- The operand bytes of an instruction term. -/
def Instr.operands : Instr → Operands
  | .incZp zp => .zp zp
  | .incZpi base index => .zpi base index
  | .incAbs low high => .abs low high
  | .incAbsi low high index => .absi low high index
  | .decZp zp => .zp zp
  | .decZpi base index => .zpi base index
  | .decAbs low high => .abs low high
  | .decAbsi low high index => .absi low high index

/-- The length in bytes of an instruction (R50). -/
def Instr.length (i : Instr) : Nat := i.value.length

/-- The operand bytes laid out at ascending addresses (R50 to R54). -/
def Operands.bytes : Operands → List Byte
  | .zp address => [address]
  | .zpi base index => [base, index]
  | .abs low high => [low, high]
  | .absi low high index => [low, high, index]

/-- The bytes of an instruction on a machine that registers it under the opcode byte `op` (R50; one instruction value
may stand under several bytes, R74). -/
def encodeAs (op : Byte) (i : Instr) : List Byte := op :: i.operands.bytes

/-- The bytes of an instruction with the default table (R57, R61). -/
def encode (i : Instr) : List Byte := encodeAs (defaultOpcode i.value) i

/-- The first opcode byte a table gives an instruction value. -/
def DispatchTable.opcodeOf : DispatchTable → InstrValue → Option Byte
  | [], _ => none
  | (k, v') :: rest, v => if v' = v then some k else DispatchTable.opcodeOf rest v

/-- The bytes of an instruction on a machine with the table `dt`; `none` when no opcode byte spells it. -/
def encodeIn (dt : DispatchTable) (i : Instr) : Option (List Byte) :=
  (dt.opcodeOf i.value).map fun op => encodeAs op i

/-- The bytes of a table word: byte `k` is bits 8k+7 to 8k of `w`, the first byte at the lowest address; the bits from
`nbits` up to the longest instruction (four bytes, R50) are 0. -/
def tableBytes (nbits w : Nat) : List Byte :=
  let byteAt := fun k : Nat => if 8 * k < nbits then BitVec.ofNat 8 (w / 2 ^ (8 * k)) else 0
  [byteAt 0, byteAt 1, byteAt 2, byteAt 3]

/-- The instruction the decoder reads from a word numbered as `spec/opcode_table.json` numbers it, with the default
table. -/
def decodeTableWord (nbits w : Nat) : Option Instr :=
  match decode defaultTable (tableBytes nbits w) with
  | .ok (i, _) => some i
  | .error _ => none

end Sys2Proof
end

