-- ==== Sys2Proof/Machine/State.lean ====
section
/-! DEFINITION. The state of the machine as plain data, the reasons a tick can stop, and the state after reset. -/

namespace Sys2Proof.Machine

/-- The seven status flags, kept as seven independent Booleans (R15). -/
structure Flags where
  /-- NEGATIVE -/
  n : Bool
  /-- OVERFLOW -/
  v : Bool
  /-- BREAK -/
  b : Bool
  /-- DECIMAL -/
  d : Bool
  /-- INTERRUPT-DISABLE -/
  i : Bool
  /-- ZERO -/
  z : Bool
  /-- CARRY -/
  c : Bool
deriving DecidableEq, Repr

/-- The direction of a bus transaction (R110). -/
inductive BusDir where
  | read
  | write
deriving DecidableEq, Repr

/-- The second possible answer of each transaction, "failed" instead of a byte or of "done" (R118, D9). -/
inductive BusAnswer where
  | done
  | failed
deriving DecidableEq, Repr

/-- One bus transaction as the core issues it (R35, R36). -/
inductive BusEvent where
  /-- A read of `addr`; the byte it returned, or `none` where the bus reported failure. -/
  | read (addr : Word) (answer : Option Byte)
  /-- A write of `value` at `addr`, and whether the bus accepted it. -/
  | write (addr : Word) (value : Byte) (accepted : Bool)
deriving DecidableEq, Repr

/-- Memory behind the bus: (address, byte) pairs, addresses strictly rising, no entry equal to what an unlisted
address reads as (`Memory.wf`; notes/assumptions/3.md). -/
abbrev Memory := List Host.Cell

/-- The state: every register and flag of R10, the memory and the parameters a step needs (R6), the outputs of the
last tick, and the model's two fields for the environment's open choices. -/
structure State where
  /-- `A`, the accumulator (R11) -/
  a : Byte
  /-- `X`, the first index register (R12) -/
  x : Byte
  /-- `Y`, the second index register (R12) -/
  y : Byte
  /-- `SP`, the stack pointer (R14) -/
  sp : Byte
  /-- `PC`, the program counter (R13) -/
  pc : Word
  /-- the status flags (R15) -/
  p : Flags
  /-- the memory the bus reaches (R20, R31) -/
  mem : Memory
  /-- `DT`, the dispatch table, constant (R73, R75; notes/assumptions/1.md) -/
  dt : DispatchTable
  /-- `BUS_CAN_FAIL`, constant (R5, R118; notes/assumptions/5.md) -/
  busCanFail : Bool
  /-- MODEL's field: the bus's answers to the coming transactions, one each, "done" once the list is empty
  (notes/assumptions/5.md) -/
  answers : List BusAnswer
  /-- OUTPUT of the last tick: its bus transactions in order (R35, R36; notes/assumptions/9.md) -/
  trace : List BusEvent
  /-- OUTPUT of the last tick: its cycle count, 0 where none is reported (R79, R113; notes/assumptions/8.md) -/
  cycles : Byte
  /-- MODEL's field: how many free values have been drawn (notes/assumptions/6.md, 10.md) -/
  draws : Nat
deriving DecidableEq, Repr

/-- The two reportable conditions with the values recorded (R110). -/
inductive Condition where
  | illegalOpcode (op : Byte) (addr : Word)
  | busFailure (addr : Word) (dir : BusDir)
deriving DecidableEq, Repr

/-- A tick that did not complete: its condition and the faulted state it leaves (R112, R119 to R121), which is never
final (R122). The model stops where the spec ends the run (R81), so both are safe (notes/assumptions/7.md). -/
inductive Fault where
  /-- Raised by the dispatch step when the table holds no instruction for the byte `op` fetched at `addr` (R111);
  safe. -/
  | illegalOpcode (op : Byte) (addr : Word) (after : State)
  /-- Raised by any bus transaction the bus reports as failed (R118); safe. -/
  | busFailure (addr : Word) (dir : BusDir) (after : State)
deriving DecidableEq, Repr

/-- Reasons the model itself has no meaning for an instruction. No arm of this model answers one. -/
inductive Refusal where
  /-- An arm of `exec` whose instruction is not modelled yet (none is left); safe. -/
  | notModelled (mnemonic : String)
deriving DecidableEq, Repr

/-- What a tick answers. -/
abbrev Outcome := Host.Outcome State Fault Refusal

/-- `INIT`: the register and flag values at the first tick, an open parameter (R24, R130). -/
structure Init where
  a : Byte
  x : Byte
  y : Byte
  sp : Byte
  pc : Word
  p : Flags
deriving DecidableEq, Repr

/-- Construction: the state from `INIT`, a finished dispatch table, `BUS_CAN_FAIL` and the memory the environment
provides (R130, R132, R133). -/
def State.construct (init : Init) (dt : DispatchTable) (busCanFail : Bool) (mem : Memory) : State where
  a := init.a
  x := init.x
  y := init.y
  sp := init.sp
  pc := init.pc
  p := init.p
  mem := mem
  dt := dt
  busCanFail := busCanFail
  answers := []
  trace := []
  cycles := 0
  draws := 0

/-- DESIGN CHOICE: the spec gives no value to any field of `INIT` (R24); the model names zero for each
(notes/assumptions/2.md). -/
def Init.zero : Init where
  a := 0
  x := 0
  y := 0
  sp := 0
  pc := 0
  p := ⟨false, false, false, false, false, false, false⟩

/-- The machine right after reset: `INIT` of zeros (log 2), the default table (log 1), a bus that may fail (log 5), no
memory listed (log 3). -/
def State.reset : State := State.construct Init.zero defaultTable true []

end Sys2Proof.Machine
end

