-- ==== Sys2Proof/Machine/Flags.lean ====
section
/-! DEFINITION. The one flag computation of the core, and the packed view of the flags at the host's inspection
interface. -/

namespace Sys2Proof.Machine

/-- `update_negative_zero` (R95): NEGATIVE from bit 7, ZERO from the whole byte; CARRY, OVERFLOW and the others are
not touched (R98). -/
def updateNegativeZero (result : Byte) (p : Flags) : Flags :=
  { p with n := result.getLsbD 7, z := decide (result = 0) }

/-- The named flags of R15. -/
inductive Flag where
  | negative
  | overflow
  | brk
  | decimal
  | interruptDisable
  | zero
  | carry
deriving DecidableEq, Repr

/-- The position of each flag in the packed status byte: the table of R15 (decision D2). -/
def Flag.bit : Flag → Nat
  | .negative => 7
  | .overflow => 6
  | .brk => 4
  | .decimal => 3
  | .interruptDisable => 2
  | .zero => 1
  | .carry => 0

/-- The named constant of each flag: the table of R15 (decision D2). -/
def Flag.mask (f : Flag) : Byte := BitVec.twoPow 8 f.bit

/-- Read one flag (R18). -/
def Flags.get (p : Flags) : Flag → Bool
  | .negative => p.n
  | .overflow => p.v
  | .brk => p.b
  | .decimal => p.d
  | .interruptDisable => p.i
  | .zero => p.z
  | .carry => p.c

/-- Write one flag (R18). -/
def Flags.set (p : Flags) (f : Flag) (value : Bool) : Flags :=
  match f with
  | .negative => { p with n := value }
  | .overflow => { p with v := value }
  | .brk => { p with b := value }
  | .decimal => { p with d := value }
  | .interruptDisable => { p with i := value }
  | .zero => { p with z := value }
  | .carry => { p with c := value }

/-- The contribution of one flag to the packed byte. -/
def Flags.masked (p : Flags) (f : Flag) : Byte := if p.get f then f.mask else 0

/-- The packed status byte N V - B D I Z C (R15, decision D2); bit 5 is the argument `bit5`, since no value is
specified for it (U7). -/
def Flags.pack (bit5 : Bool) (p : Flags) : Byte :=
  p.masked .negative ||| p.masked .overflow ||| (if bit5 then 0x20 else 0) ||| p.masked .brk |||
    p.masked .decimal ||| p.masked .interruptDisable ||| p.masked .zero ||| p.masked .carry

end Sys2Proof.Machine
end

