-- ==== Sys2Proof/Machine/Operands.lean ====
section
/-! DEFINITION. Operand forms and the ALU step: the effective address of each addressing mode (41_addressing_modes),
the cycle cost of each mode, and the two ALU operations (42_alu_flags). -/

namespace Sys2Proof.Machine

/-- `{high, low}`, the source's `(high << 8) | low` (R7, R32). -/
def wordOfBytes (high low : Byte) : Word := (high.setWidth 16 <<< 8) ||| low.setWidth 16

/-- The effective address of the operand bytes: ZP zero-extends (R86); ZPI adds in 8 bits, the carry out of bit 7
dropped (R87); ABS puts the high byte above the low byte (R88); ABSI adds the zero-extended index in 16 bits, the carry
out of bit 15 dropped (R89). -/
def resolve : Operands → Word
  | .zp zp => zp.setWidth 16
  | .zpi base index => (base + index).setWidth 16
  | .abs low high => wordOfBytes high low
  | .absi low high index => wordOfBytes high low + index.setWidth 16

/-- `CYCLES`: fixed per mode, the same for both operations (R79). -/
def modeCycles : Mode → Byte
  | .zp => 5
  | .zpi => 6
  | .abs => 6
  | .absi => 7

/-- The ALU: one byte in, one byte out, modulo 256; no carry in, nothing recorded of the ninth bit (R96). -/
def alu : Operation → Byte → Byte
  | .inc, old => old + 1
  | .dec, old => old - 1

end Sys2Proof.Machine
end

