-- ==== Sys2Proof/Machine/Ops.lean ====
section
/-! DEFINITION. The named operations every meaning is made of: memory, taking an exception, bus transactions, fetching
bytes at the program counter, and the common handler body (R78). -/

namespace Sys2Proof.Machine

/-! ### Memory -/

/-- What an address that is not listed reads as. DESIGN CHOICE (notes/assumptions/3.md): the core "has no notion of an
uninitialised cell" (R46), so a read never faults for want of a written byte; the spec gives no contents. -/
def Memory.unlisted : Byte := 0

/-- Read one byte. -/
def Memory.read : Memory → Word → Byte
  | [], _ => Memory.unlisted
  | (k, b) :: rest, addr => if k = addr.toNat then b else Memory.read rest addr

/-- List a byte at an address, in address order, in place of an entry for it. -/
def Memory.insert : Memory → Word → Byte → Memory
  | [], addr, v => [(addr.toNat, v)]
  | (k, b) :: rest, addr, v =>
    if k = addr.toNat then (k, v) :: rest
    else if addr.toNat < k then (addr.toNat, v) :: (k, b) :: rest
    else (k, b) :: Memory.insert rest addr v

/-- Take an address out of the list. -/
def Memory.erase (m : Memory) (addr : Word) : Memory := m.filter fun cell => decide (cell.1 ≠ addr.toNat)

/-- Write one byte, keeping the canonical form. -/
def Memory.write (m : Memory) (addr : Word) (v : Byte) : Memory :=
  if v = Memory.unlisted then m.erase addr else m.insert addr v

/-- The canonical form: addresses strictly rising and below 65536 (R31), no entry equal to what an unlisted address
reads as. -/
def Memory.wf : Memory → Bool
  | [] => true
  | [(k, b)] => decide (k < 65536) && decide (b ≠ Memory.unlisted)
  | (k, b) :: (k', b') :: rest =>
    decide (k < k') && decide (b ≠ Memory.unlisted) && Memory.wf ((k', b') :: rest)

/-! ### Updates of the state -/

/-- The start of a tick: no transaction issued, no count to report yet (R36, R113). -/
def State.beginTick (s : State) : State := { s with trace := [], cycles := 0 }

/-- `PC <- (PC + 1) mod 65536` (R13, R71). -/
def State.advancePc (s : State) : State := { s with pc := s.pc + 1 }

/-- One bus transaction has been issued: it joins the tick's list and takes the bus's next answer. -/
def State.issue (e : BusEvent) (s : State) : State := { s with answers := s.answers.tail, trace := s.trace ++ [e] }

/-- The byte a completed write leaves in memory. -/
def State.store (addr : Word) (v : Byte) (s : State) : State := { s with mem := s.mem.write addr v }

/-- What a failed write leaves in the addressed cell: a free value (R121, U8; notes/assumptions/6.md). -/
def State.scramble (addr : Word) (s : State) : State :=
  { s with mem := s.mem.write addr (Config.failedWriteCell s.draws), draws := s.draws + 1 }

/-- Steps (e) and (f) of the handler body: NEGATIVE and ZERO from the byte written, and the count reported (R78). -/
def State.complete (result : Byte) (cycles : Byte) (s : State) : State :=
  { s with p := updateNegativeZero result s.p, cycles := cycles }

/-- A tick that ends in a condition reports no count; an interface that must drive one drives 0 (R113). -/
def State.dropCycles (s : State) : State := { s with cycles := 0 }

/-! ### Taking an exception -/

/-- Taking an exception: "the return of a non-Ok outcome to the tick caller, and nothing more" (R117). Nothing is
saved, no mode changes, control goes nowhere: the state is left as it stands where the condition arose (R8, R112, R119
to R121) and no cycle count is reported (R113). -/
def takeException (c : Condition) (s : State) : Fault :=
  match c with
  | .illegalOpcode op addr => .illegalOpcode op addr s.dropCycles
  | .busFailure addr dir => .busFailure addr dir s.dropCycles

/-- What the outcome reports of a fault (R110). -/
def Fault.condition : Fault → Condition
  | .illegalOpcode op addr _ => .illegalOpcode op addr
  | .busFailure addr dir _ => .busFailure addr dir

/-- Going on after a fault. There is no return instruction and nothing to restore (R123): a caller that ticks again
runs "from the faulted PC as if nothing had happened" (R122), that is, from this state. -/
def Fault.after : Fault → State
  | .illegalOpcode _ _ s => s
  | .busFailure _ _ s => s

/-! ### Bus transactions -/

/-- What a part of a tick answers: a value and the state so far, or the fault that ends the tick (R8, `raise`). -/
inductive TickPart (α : Type) where
  | ok (value : α) (s : State)
  | fault (r : Fault)
deriving DecidableEq, Repr

/-- Whether the bus answers the next transaction with "failed"; never, unless `BUS_CAN_FAIL` (R118). -/
def State.busFails (s : State) : Bool := s.busCanFail && decide (s.answers.head? = some .failed)

/-- Whether the bus answers each of the next `n` transactions. -/
def State.busDelivers (n : Nat) (s : State) : Bool :=
  !s.busCanFail || (s.answers.take n).all fun answer => decide (answer = .done)

/-- Whether the bus answers the next `n` transactions and reports the one after them as failed. -/
def State.busFailsAfter (n : Nat) (s : State) : Bool :=
  s.busCanFail && (s.answers.take n).all (fun answer => decide (answer = .done)) &&
    decide (s.answers[n]? = some .failed)

/-- `MemRead(addr, 1)` (R8, R30): one read transaction. On a reported failure no byte is invented (R45) and the tick
ends with `BusFailure(addr, read)` (R118). -/
def memRead (addr : Word) (s : State) : TickPart Byte :=
  if s.busFails then .fault (takeException (.busFailure addr .read) (s.issue (.read addr none)))
  else .ok (s.mem.read addr) (s.issue (.read addr (some (s.mem.read addr))))

/-- `MemWrite(addr, 1, v)` (R8, R30): one write transaction. On a reported failure the tick ends with
`BusFailure(addr, write)` and the cell holds a free value (R118, R121). -/
def memWrite (addr : Word) (v : Byte) (s : State) : TickPart Unit :=
  if s.busFails then
    .fault (takeException (.busFailure addr .write) ((s.issue (.write addr v false)).scramble addr))
  else .ok () ((s.issue (.write addr v true)).store addr v)

/-! ### Fetching at the program counter -/

/-- `b <- MemRead(PC, 1); PC <- (PC + 1) mod 65536` (R71, R85): the advance follows a read that succeeded. -/
def fetchByte (s : State) : TickPart Byte :=
  match memRead s.pc s with
  | .fault r => .fault r
  | .ok b s' => .ok b s'.advancePc

/-- One operand byte fetched, and the next part of the fetch run on it. -/
def fetchThen {α : Type} (s : State) (next : Byte → State → TickPart α) : TickPart α :=
  match fetchByte s with
  | .fault r => .fault r
  | .ok b s' => next b s'

/-- The operand bytes of a mode, fetched in ascending address order, one read each (R85 to R89). -/
def fetchOperands : Mode → State → TickPart Operands
  | .zp, s =>
    fetchThen s fun zp s => .ok (.zp zp) s
  | .zpi, s =>
    fetchThen s fun base s => fetchThen s fun index s => .ok (.zpi base index) s
  | .abs, s =>
    fetchThen s fun low s => fetchThen s fun high s => .ok (.abs low high) s
  | .absi, s =>
    fetchThen s fun low s => fetchThen s fun high s => fetchThen s fun index s => .ok (.absi low high index) s

/-! ### The common handler body -/

/-- Steps (b) to (f) of the handler body at the effective address `ea` (R78): read, ALU, write back to the same
address (R93), flags, cycle count. The byte read and the byte computed are local values: no register holds them
(R99). -/
def handler (operation : Operation) (mode : Mode) (ea : Word) (s : State) : Outcome :=
  match memRead ea s with
  | .fault r => .fault r
  | .ok old s =>
    match memWrite ea (alu operation old) s with
    | .fault r => .fault r
    | .ok _ s => .next (s.complete (alu operation old) (modeCycles mode))

end Sys2Proof.Machine
end

