-- ==== Sys2Proof/Machine/Dec.lean ====
section
/-! DEFINITION. The decrement family (44_dec): one meaning per instruction, each the common handler body at the
effective address of its operand bytes. `PC` already points past the instruction (R19; notes/assumptions/11.md). -/

namespace Sys2Proof.Machine

/-- DEC ZP (R106): 5 cycles. -/
def execDecZp (zp : Byte) (s : State) : Outcome :=
  handler .dec .zp (resolve (.zp zp)) s

/-- DEC ZPI (R107): 6 cycles; the address sum wraps in the zero page. -/
def execDecZpi (base index : Byte) (s : State) : Outcome :=
  handler .dec .zpi (resolve (.zpi base index)) s

/-- DEC ABS (R108): 6 cycles. -/
def execDecAbs (low high : Byte) (s : State) : Outcome :=
  handler .dec .abs (resolve (.abs low high)) s

/-- DEC ABSI (R109): 7 cycles, with or without a page crossing. -/
def execDecAbsi (low high index : Byte) (s : State) : Outcome :=
  handler .dec .absi (resolve (.absi low high index)) s

end Sys2Proof.Machine
end

