-- ==== Sys2Proof/Machine/Inc.lean ====
section
/-! DEFINITION. The increment family (43_inc): one meaning per instruction, each the common handler body at the
effective address of its operand bytes. `PC` already points past the instruction (R19; notes/assumptions/11.md). -/

namespace Sys2Proof.Machine

/-- INC ZP (R101): 5 cycles. -/
def execIncZp (zp : Byte) (s : State) : Outcome :=
  handler .inc .zp (resolve (.zp zp)) s

/-- INC ZPI (R102): 6 cycles; the address sum wraps in the zero page. -/
def execIncZpi (base index : Byte) (s : State) : Outcome :=
  handler .inc .zpi (resolve (.zpi base index)) s

/-- INC ABS (R103): 6 cycles. -/
def execIncAbs (low high : Byte) (s : State) : Outcome :=
  handler .inc .abs (resolve (.abs low high)) s

/-- INC ABSI (R104): 7 cycles, with or without a page crossing. -/
def execIncAbsi (low high index : Byte) (s : State) : Outcome :=
  handler .inc .absi (resolve (.absi low high index)) s

end Sys2Proof.Machine
end

