-- ==== Sys2Proof/Machine/Dispatch.lean ====
section
/-! DEFINITION. One arm per instruction (R74: a closed variant, so that dispatch is exhaustive). -/

namespace Sys2Proof.Machine

def exec (i : Instr) (s : State) : Host.Outcome State Fault Refusal :=
  match i with
  | .incZp zp => Sys2Proof.Machine.execIncZp zp s
  | .incZpi base index => Sys2Proof.Machine.execIncZpi base index s
  | .incAbs low high => Sys2Proof.Machine.execIncAbs low high s
  | .incAbsi low high index => Sys2Proof.Machine.execIncAbsi low high index s
  | .decZp zp => Sys2Proof.Machine.execDecZp zp s
  | .decZpi base index => Sys2Proof.Machine.execDecZpi base index s
  | .decAbs low high => Sys2Proof.Machine.execDecAbs low high s
  | .decAbsi low high index => Sys2Proof.Machine.execDecAbsi low high index s

end Sys2Proof.Machine
end

