-- ==== Sys2Proof/Machine/Step.lean ====
section
/-! DEFINITION. One tick (R71): fetch the opcode, advance `PC`, look it up, fetch the operand bytes, run the handler. -/

namespace Sys2Proof.Machine

/-- `tick()` (R70, R71): `next` is `Ok`, its count in `cycles`; `fault` is one of the two error outcomes (R72). -/
def step (s : State) : Host.Outcome State Fault Refusal :=
  match fetchByte s.beginTick with
  | .fault r => .fault r
  | .ok op s₁ =>
    match s₁.dt.lookup op with
    | none => .fault (takeException (.illegalOpcode op s.pc) s₁)
    | some v =>
      match fetchOperands v.mode s₁ with
      | .fault r => .fault r
      | .ok o s₂ => exec (Instr.ofOperands v.operation o) s₂

/-- `s` with the four bytes of a table word stored where the next tick fetches: at `PC` and the three addresses after
it, modulo 65536 (R63). The fetch also needs a bus that answers, so announced bus failures are dropped. This stands
for the external program load (R4, R133; notes/assumptions/13.md). -/
def State.withFetchWord (s : State) (nbits w : Nat) : State :=
  match tableBytes nbits w with
  | [b₀, b₁, b₂, b₃] =>
    { s with
      mem := (((s.mem.write s.pc b₀).write (s.pc + 1) b₁).write (s.pc + 2) b₂).write (s.pc + 3) b₃
      answers := [] }
  | _ => s

end Sys2Proof.Machine
end

