-- ==== Sys2Proof/Machine/HostPort.lean ====
section
/-! DEFINITION. The host's side of the core (R82): registration before the first tick (R73, R76), get and set of each
register and flag between ticks (R18), the packed status byte (R15), and the report of a tick (R72, R110, R113). -/

namespace Sys2Proof.Machine

/-! ### Registration -/

/-- What setup code may offer for an opcode byte: one of the eight instruction values, or a handler outside them,
which has no meaning in the spec (R74). -/
inductive Handler where
  | value (v : InstrValue)
  | outside
deriving DecidableEq, Repr

/-- The instruction value a handler stands for, if it is one of the eight. -/
def Handler.toValue : Handler → Option InstrValue
  | .value v => some v
  | .outside => none

/-- What a registration answers. -/
inductive Registration where
  /-- The byte was free and is registered now. -/
  | accepted (table : DispatchTable)
  /-- The byte was registered before, and one of the eight is offered for it again: the call is rejected and the table
  keeps the first handler (R76, D10). -/
  | duplicate (table : DispatchTable)
  /-- A handler outside the eight: the table is refused (R74, R92, D29), whether or not the byte was registered before
  (DESIGN CHOICE, notes/assumptions/16.md). -/
  | refused
deriving DecidableEq, Repr

/-- List an opcode byte in its place by number. -/
def DispatchTable.insert : DispatchTable → Byte → InstrValue → DispatchTable
  | [], op, v => [(op, v)]
  | (k, v') :: rest, op, v =>
    if op.toNat < k.toNat then (op, v) :: (k, v') :: rest else (k, v') :: DispatchTable.insert rest op v

/-- `register(opcode, handler)` (R73, R76). DESIGN CHOICE (notes/assumptions/16.md): for a handler outside the eight
offered for a byte already registered, R76 would reject the call and R74 refuses a table that holds one, and the spec
does not say which check comes first; the model makes R74's check first and refuses the whole table. -/
def register (table : DispatchTable) (op : Byte) : Handler → Registration
  | .outside => .refused
  | .value v =>
    match table.lookup op with
    | some _ => .duplicate table
    | none => .accepted (DispatchTable.insert table op v)

/-- The whole registration sequence (R73), from a table so far: the finished table and the bytes whose second
registration was reported as an error, or `none` for a table that is refused. -/
def buildTable : DispatchTable → List (Byte × Handler) → Option (DispatchTable × List Byte)
  | table, [] => some (table, [])
  | table, (op, h) :: rest =>
    match register table op h with
    | .accepted table' => buildTable table' rest
    | .duplicate table' => (buildTable table' rest).map fun (t, reported) => (t, op :: reported)
    | .refused => none

/-! ### Inspection and setup between ticks -/

/-- The four 8-bit registers (R10). -/
inductive Reg where
  | a
  | x
  | y
  | sp
deriving DecidableEq, Repr

/-- Read an 8-bit register (R18). -/
def State.getReg (s : State) : Reg → Byte
  | .a => s.a
  | .x => s.x
  | .y => s.y
  | .sp => s.sp

/-- Write an 8-bit register: the value is taken modulo 256 (R17, R18). -/
def State.setReg (s : State) (r : Reg) (value : Nat) : State :=
  match r with
  | .a => { s with a := BitVec.ofNat 8 value }
  | .x => { s with x := BitVec.ofNat 8 value }
  | .y => { s with y := BitVec.ofNat 8 value }
  | .sp => { s with sp := BitVec.ofNat 8 value }

/-- Write the program counter: the value is taken modulo 65536 (R17, R18). -/
def State.setPc (s : State) (value : Nat) : State := { s with pc := BitVec.ofNat 16 value }

/-- Read one flag (R18). -/
def State.getFlag (s : State) (f : Flag) : Bool := s.p.get f

/-- Write one flag (R18). -/
def State.setFlag (s : State) (f : Flag) (value : Bool) : State := { s with p := s.p.set f value }

/-- Read the packed status byte (R15); bit 5 is a free value, drawn anew at every read (U7, D27;
notes/assumptions/10.md). -/
def State.readPacked (s : State) : Byte × State :=
  (s.p.pack (Config.statusBit5 s.draws), { s with draws := s.draws + 1 })

/-! ### The report of a tick -/

/-- The three outcomes as the caller sees them (R72). -/
inductive Report where
  | ok (cycles : Byte)
  | illegalOpcode (op : Byte) (addr : Word)
  | busFailure (addr : Word) (dir : BusDir)
deriving DecidableEq, Repr

/-- The report of an outcome; `none` for a refusal, which is the model's and not the core's. -/
def report : Outcome → Option Report
  | .next s => some (.ok s.cycles)
  | .fault (.illegalOpcode op addr _) => some (.illegalOpcode op addr)
  | .fault (.busFailure addr dir _) => some (.busFailure addr dir)
  | .refused _ => none

/-- The outcome codes 0, 1, 2 (R110, R113, D7). -/
def Report.code : Report → Nat
  | .ok _ => 0
  | .illegalOpcode _ _ => 1
  | .busFailure _ _ => 2

/-- The count an interface drives that must drive one: 0 where none is reported (R113, D8). -/
def Report.drivenCycles : Report → Byte
  | .ok cycles => cycles
  | .illegalOpcode _ _ => 0
  | .busFailure _ _ => 0

end Sys2Proof.Machine
end

