-- ==== Sys2Proof/Safety.lean ====
section
/-! DEFINITION. The terms claims use: the state an outcome leaves, completed runs, elapsed cycles, and the invariant of
the machine. -/

namespace Sys2Proof.Safety

open Sys2Proof.Machine

/-- The state the core is in after a tick, whatever the outcome (R112, R119 to R121); a refusal leaves none. -/
def stateAfter : Outcome → Option State
  | .next s => some s
  | .fault r => some r.after
  | .refused _ => none

/-- Change the state inside an outcome, keeping the outcome's kind and what it reports. -/
def mapState (f : State → State) : Outcome → Outcome
  | .next s => .next (f s)
  | .fault (.illegalOpcode op addr s) => .fault (.illegalOpcode op addr (f s))
  | .fault (.busFailure addr dir s) => .fault (.busFailure addr dir (f s))
  | .refused r => .refused r

/-- `n` ticks from `s` all complete and end in `t`: a run that has not ended (R81). -/
def Completes (n : Nat) (s t : State) : Prop := Host.Core.run Sys2Proof.core n s = .next t

/-- The caller's sum of the counts of the next `n` ticks (R79, R126); `none` where one of them does not complete. -/
def elapsedCycles : Nat → State → Option Nat
  | 0, _ => some 0
  | n + 1, s =>
    match step s with
    | .next t => (elapsedCycles n t).map (t.cycles.toNat + ·)
    | .fault _ => none
    | .refused _ => none

/-- The invariant of the machine: memory and dispatch table in canonical form, a count a tick can report (R79, R113),
at most the six transactions a tick can issue (R143). -/
structure Inv (s : State) : Prop where
  mem : Memory.wf s.mem = true
  table : DispatchTable.wf s.dt = true
  cycles : s.cycles.toNat ∈ [0, 5, 6, 7]
  transactions : s.trace.length ≤ 6

end Sys2Proof.Safety
end

