-- ==== Sys2Proof/Certificates/Slice0/Obligations.lean ====
section
/-! DEFINITION. The statements for the provers, from the numbered rules of the spec. The first part names the shapes
they share; each statement says in its docstring which rule it formalises. -/

namespace Sys2Proof.Claims

open Sys2Proof.Machine

/-- The byte `k` places after the program counter, modulo 65536 (R63). -/
def codeByte (s : State) (k : Nat) : Byte := s.mem.read (s.pc + BitVec.ofNat 16 k)

/-- The operand bytes a mode finds behind the opcode at the program counter, in fetch order (R50). -/
def operandsAt (s : State) : Mode → Operands
  | .zp => .zp (codeByte s 1)
  | .zpi => .zpi (codeByte s 1) (codeByte s 2)
  | .abs => .abs (codeByte s 1) (codeByte s 2)
  | .absi => .absi (codeByte s 1) (codeByte s 2) (codeByte s 3)

/-- The reads of the first `n` bytes at the program counter, each delivered (R36). -/
def fetchEvents (s : State) (n : Nat) : List BusEvent :=
  (List.range n).map fun k => .read (s.pc + BitVec.ofNat 16 k) (some (codeByte s k))

/-- The data read and the data write of one instruction, in this order (R36, R138). -/
def dataEvents (s : State) (ea : Word) (new : Byte) : List BusEvent :=
  [.read ea (some (s.mem.read ea)), .write ea new true]

/-- What a completed instruction does to everything but `PC` and the list of transactions: the byte `new` at `ea`,
NEGATIVE and ZERO from it, the cycle count, and nothing else (R100, R105). -/
structure Rmw (s t : State) (ea : Word) (new : Byte) (cycles : Nat) : Prop where
  cell : t.mem.read ea = new
  otherCells : ∀ addr, addr ≠ ea → t.mem.read addr = s.mem.read addr
  negative : t.p.n = new.getLsbD 7
  zero : t.p.z = decide (new = 0)
  otherFlags : t.p.v = s.p.v ∧ t.p.b = s.p.b ∧ t.p.d = s.p.d ∧ t.p.i = s.p.i ∧ t.p.c = s.p.c
  registers : t.a = s.a ∧ t.x = s.x ∧ t.y = s.y ∧ t.sp = s.sp
  count : t.cycles.toNat = cycles
  parameters : t.dt = s.dt ∧ t.busCanFail = s.busCanFail

/-- A whole tick of an instruction of `len` bytes: on a bus that answers its `len + 2` transactions it completes with
the byte `f old` written at `ea`; on any other bus it stops with `BusFailure` (R101 to R104, R106 to R109). -/
def TickSpec (s : State) (len cycles : Nat) (ea : Word) (f : Nat → Nat) : Prop :=
  let new := BitVec.ofNat 8 (f (s.mem.read ea).toNat)
  (s.busDelivers (len + 2) = true →
    ∃ t, step s = .next t ∧ Rmw s t ea new cycles ∧ t.pc.toNat = (s.pc.toNat + len) % 65536 ∧
      t.trace = fetchEvents s len ++ dataEvents s ea new) ∧
  (s.busDelivers (len + 2) = false → ∃ addr dir after, step s = .fault (.busFailure addr dir after))

/-- The meaning of an instruction completes with the byte `f old` written at `ea`; `PC`, already past the
instruction, stays. -/
def ExecDone (i : Instr) (s : State) (cycles : Nat) (ea : Word) (f : Nat → Nat) : Prop :=
  let new := BitVec.ofNat 8 (f (s.mem.read ea).toNat)
  ∃ t, exec i s = .next t ∧ Rmw s t ea new cycles ∧ t.pc = s.pc ∧ t.trace = s.trace ++ dataEvents s ea new

/-- `(old + 1) mod 256` (R100). -/
def plusOne (old : Nat) : Nat := (old + 1) % 256

/-- `(old - 1) mod 256`, "equivalently (old + 255) mod 256" (R96, R105). -/
def minusOne (old : Nat) : Nat := (old + 255) % 256

/-- Everything but `PC`, the outputs and the environment's answers is as before. -/
structure Untouched (s u : State) : Prop where
  registers : u.a = s.a ∧ u.x = s.x ∧ u.y = s.y ∧ u.sp = s.sp
  flags : u.p = s.p
  memory : u.mem = s.mem
  parameters : u.dt = s.dt ∧ u.busCanFail = s.busCanFail

/-- `s` with other values in the registers no instruction uses. -/
def withRegisters (a x y sp : Byte) (s : State) : State := { s with a := a, x := x, y := y, sp := sp }

/-- The outcome of a tick that starts with the flags `q` instead: a completed tick keeps from `q` the five flags
it does not write; a tick that stops keeps all seven. -/
def withFlags (q : Flags) : Outcome → Outcome
  | .next t => .next { t with p := { q with n := t.p.n, z := t.p.z } }
  | o => Safety.mapState (fun u => { u with p := q }) o

/-- The tick at `s` reads no register but `PC` and no flag: with other values in them it has the same outcome, with
those values still there but for NEGATIVE and ZERO of a completed tick (R100, R105). -/
def ReadsOnlyPc (s : State) : Prop :=
  ∀ (a x y sp : Byte) (q : Flags),
    step (withRegisters a x y sp { s with p := q }) = Safety.mapState (withRegisters a x y sp) (withFlags q (step s))

end Sys2Proof.Claims

open Sys2Proof Sys2Proof.Machine Sys2Proof.Safety Sys2Proof.Claims

/-! ### Encoding and decoding -/

/-- Decoding the bytes of an instruction, whatever follows them, gives it back with the rest: every operand byte at
every value, all eight instructions, the default table (formats R50 to R54, numbers R57). -/
def Obligations.DecodeUndoesEncode : Prop :=
  ∀ (i : Instr) (rest : List Byte), decode defaultTable (encode i ++ rest) = .ok (i, rest)

/-- The same on every dispatch table in canonical form, for every instruction the table spells; and exactly the
well-formed instructions have bytes. -/
def Obligations.DecodeUndoesEncodeOnAnyTable : Prop :=
  ∀ (dt : DispatchTable) (i : Instr), dt.wf = true →
    (i.wf dt = true ↔ ∃ bytes, encodeIn dt i = some bytes) ∧
    ∀ bytes rest, encodeIn dt i = some bytes → decode dt (bytes ++ rest) = .ok (i, rest)

/-- What decodes was encoded: the bytes are an opcode byte registered for the instruction value, the operand bytes,
and the rest; with the default table they are exactly the instruction's encoding and the rest. -/
def Obligations.EncodeUndoesDecode : Prop :=
  (∀ (dt : DispatchTable) (bytes : List Byte) (i : Instr) (rest : List Byte), decode dt bytes = .ok (i, rest) →
    ∃ op, dt.lookup op = some i.value ∧ bytes = encodeAs op i ++ rest) ∧
  ∀ (bytes : List Byte) (i : Instr) (rest : List Byte), decode defaultTable bytes = .ok (i, rest) →
    bytes = encode i ++ rest

/-- R56, R60: the whole opcode byte and nothing else selects the instruction value and with it the length; the operand
bytes select nothing. -/
def Obligations.OpcodeByteDecidesAlone : Prop :=
  ∀ (dt : DispatchTable) (op : Byte) (bytes : List Byte),
    (dt.lookup op = none → decode dt (op :: bytes) = .error (.illegalOpcode op)) ∧
    ∀ v, dt.lookup op = some v →
      (bytes.length < v.mode.operandBytes → decode dt (op :: bytes) = .error .truncated) ∧
      (v.mode.operandBytes ≤ bytes.length →
        ∃ i, decode dt (op :: bytes) = .ok (i, bytes.drop v.mode.operandBytes) ∧ i.value = v ∧
          i.length = 1 + v.mode.operandBytes)

/-- The example bytes of R61 decode to the instructions they are the examples of. -/
def Obligations.SyntaxTableExamplesDecode : Prop :=
  decode defaultTable [0xE6, 0x10] = .ok (.incZp 0x10, []) ∧
  decode defaultTable [0xF6, 0x55, 0xB0] = .ok (.incZpi 0x55 0xB0, []) ∧
  decode defaultTable [0xEE, 0x34, 0x12] = .ok (.incAbs 0x34 0x12, []) ∧
  decode defaultTable [0xFE, 0x34, 0x12, 0xFF] = .ok (.incAbsi 0x34 0x12 0xFF, []) ∧
  decode defaultTable [0xC6, 0x55] = .ok (.decZp 0x55, []) ∧
  decode defaultTable [0xD6, 0x55, 0xB0] = .ok (.decZpi 0x55 0xB0, []) ∧
  decode defaultTable [0xCE, 0x34, 0x12] = .ok (.decAbs 0x34 0x12, []) ∧
  decode defaultTable [0xDE, 0x34, 0x12, 0xFF] = .ok (.decAbsi 0x34 0x12 0xFF, [])

/-- R50 to R54, R57: the bytes of each instruction with the default table, for every value of the operand bytes. -/
def Obligations.FormatsOfTheDefaultTable : Prop :=
  (∀ zp, encode (.incZp zp) = [0xE6, zp] ∧ encode (.decZp zp) = [0xC6, zp]) ∧
  (∀ base index, encode (.incZpi base index) = [0xF6, base, index] ∧
    encode (.decZpi base index) = [0xD6, base, index]) ∧
  (∀ low high, encode (.incAbs low high) = [0xEE, low, high] ∧ encode (.decAbs low high) = [0xCE, low, high]) ∧
  (∀ low high index, encode (.incAbsi low high index) = [0xFE, low, high, index] ∧
    encode (.decAbsi low high index) = [0xDE, low, high, index])

/-- R58: with the default table, whose numbers are the spec's decision D1 (notes/assumptions/1.md), exactly the bytes
other than the eight are illegal. -/
def Obligations.UnregisteredBytesAreIllegal : Prop :=
  ∀ op : Byte, defaultTable.lookup op = none ↔
    op ∉ ([0xC6, 0xCE, 0xD6, 0xDE, 0xE6, 0xEE, 0xF6, 0xFE] : List Byte)

/-- When the bytes at the program counter decode to `i` and the bus answers their fetch, the tick is the meaning of
`i` on the state the fetch leaves: `PC` past the instruction, its reads listed, no count yet, the answers used up. -/
def Obligations.StepRunsDecodedInstruction : Prop :=
  ∀ (s : State) (i : Instr) (rest : List Byte),
    decode s.dt [codeByte s 0, codeByte s 1, codeByte s 2, codeByte s 3] = .ok (i, rest) →
    s.busDelivers i.length = true →
    step s = exec i { s with
      pc := s.pc + BitVec.ofNat 16 i.length
      trace := fetchEvents s i.length
      answers := s.answers.drop i.length
      cycles := 0 }

/-- A table word placed by `withFetchWord` is what the next tick runs: on a machine with the default table the tick
completes, and it is the meaning of the instruction the decoder reads from the word, with `PC` past it and the word in
memory. The load itself is the model's (notes/assumptions/13.md). -/
def Obligations.PlacedWordRunsNext : Prop :=
  ∀ (s : State) (nbits w : Nat) (i : Instr), s.dt = defaultTable → decodeTableWord nbits w = some i →
    ∃ t u, step (s.withFetchWord nbits w) = .next t ∧ exec i u = .next t ∧
      u.pc = s.pc + BitVec.ofNat 16 i.length ∧ u.mem = (s.withFetchWord nbits w).mem

/-! ### Addressing modes -/

/-- R55: the effective address of each mode as a number. -/
def Obligations.EffectiveAddressOfEachMode : Prop :=
  (∀ zp, (resolve (.zp zp)).toNat = zp.toNat) ∧
  (∀ base index, (resolve (.zpi base index)).toNat = (base.toNat + index.toNat) % 256) ∧
  (∀ low high, (resolve (.abs low high)).toNat = high.toNat * 256 + low.toNat) ∧
  (∀ low high index,
    (resolve (.absi low high index)).toNat = (high.toNat * 256 + low.toNat + index.toNat) % 65536)

/-- R85: on a bus that answers them, the resolver reads exactly the operand bytes of its mode, in ascending order, and
advances `PC` by their number; nothing else changes. -/
def Obligations.ResolverReadsOperandBytes : Prop :=
  ∀ (m : Mode) (s : State), s.busDelivers m.operandBytes = true →
    ∃ o t, fetchOperands m s = .ok o t ∧
      o.bytes = (List.range m.operandBytes).map (codeByte s) ∧
      t = { s with
        pc := s.pc + BitVec.ofNat 16 m.operandBytes
        trace := s.trace ++ fetchEvents s m.operandBytes
        answers := s.answers.drop m.operandBytes }

/-- R20, R37: the zero page modes write no address above 0x00FF. -/
def Obligations.ZeroPageModesWriteOnlyPageZero : Prop :=
  ∀ (s t : State) (operation : Operation) (m : Mode), s.dt.lookup (codeByte s 0) = some ⟨operation, m⟩ →
    m = .zp ∨ m = .zpi → step s = .next t →
    ∀ addr : Word, 256 ≤ addr.toNat → t.mem.read addr = s.mem.read addr

/-! ### Flags and the ALU -/

/-- R95: NEGATIVE is bit 7, ZERO says the byte is 0, whatever the flags were; every completed tick applies this to the
byte it has just written to memory. That the two are never both set after it is an inference R95 marks as its own
("[derived: from this rule]"). -/
def Obligations.FlagPolicyOfTheByteWritten : Prop :=
  (∀ (r : Byte) (p : Flags),
    (updateNegativeZero r p).n = decide (128 ≤ r.toNat) ∧ (updateNegativeZero r p).z = decide (r.toNat = 0) ∧
    ((updateNegativeZero r p).n && (updateNegativeZero r p).z) = false) ∧
  ∀ s t : State, step s = .next t →
    ∃ ea new before, t.trace = before ++ [.write ea new true] ∧ t.mem.read ea = new ∧
      t.p = updateNegativeZero new s.p

/-- R96: increment and decrement modulo 256. That each undoes the other is an inference R96 marks as its own
("[derived: from this rule]"). -/
def Obligations.AluCountsModulo256 : Prop :=
  ∀ v : Byte, (alu .inc v).toNat = (v.toNat + 1) % 256 ∧ (alu .dec v).toNat = (v.toNat + 255) % 256 ∧
    alu .inc (alu .dec v) = v ∧ alu .dec (alu .inc v) = v

/-- R16, in part an inference the spec marks as its own: no tick reads a flag. Started with other flags a tick has the same outcome, but for the flags themselves: a
completed tick writes NEGATIVE and ZERO, both independently of their old values, and keeps the other five; a tick that
stops keeps all seven. -/
def Obligations.NoTickReadsAFlag : Prop :=
  ∀ (s : State) (q : Flags), step { s with p := q } = withFlags q (step s)

/-- After a completed tick NEGATIVE and ZERO are not both set, whatever they were before: an inference R95 marks as its
own ("[derived: from this rule]"). -/
def Obligations.CompletedTickNeverNegativeAndZero : Prop :=
  ∀ s t : State, step s = .next t → ¬(t.p.n = true ∧ t.p.z = true)

/-! ### The instructions, as whole ticks

The opcode numbers of seven of the eight are the spec's decision D1 (notes/assumptions/1.md): each statement says
what the default table holds for its number, and then what the instruction does under any byte of any table. -/

/-- R100: every INC instruction, in each of the four modes: what its tick does, and that nothing of it depends on a
register but `PC` or on a flag. -/
def Obligations.IncFamilyTick : Prop :=
  ∀ (s : State) (m : Mode), s.dt.lookup (codeByte s 0) = some ⟨.inc, m⟩ →
    TickSpec s (1 + m.operandBytes) (modeCycles m).toNat (resolve (operandsAt s m)) plusOne ∧ ReadsOnlyPc s

/-- R105: every DEC instruction, in each of the four modes: what its tick does, and that nothing of it depends on a
register but `PC` or on a flag. -/
def Obligations.DecFamilyTick : Prop :=
  ∀ (s : State) (m : Mode), s.dt.lookup (codeByte s 0) = some ⟨.dec, m⟩ →
    TickSpec s (1 + m.operandBytes) (modeCycles m).toNat (resolve (operandsAt s m)) minusOne ∧ ReadsOnlyPc s

/-- R101: INC ZP. -/
def Obligations.TickOfIncZp : Prop :=
  defaultTable.lookup 0xE6 = some ⟨.inc, .zp⟩ ∧
  ∀ s : State, s.dt.lookup (codeByte s 0) = some ⟨.inc, .zp⟩ →
    TickSpec s 2 5 (BitVec.ofNat 16 (codeByte s 1).toNat) plusOne

/-- R102: INC ZPI. -/
def Obligations.TickOfIncZpi : Prop :=
  defaultTable.lookup 0xF6 = some ⟨.inc, .zpi⟩ ∧
  ∀ s : State, s.dt.lookup (codeByte s 0) = some ⟨.inc, .zpi⟩ →
    TickSpec s 3 6 (BitVec.ofNat 16 (((codeByte s 1).toNat + (codeByte s 2).toNat) % 256)) plusOne

/-- R103: INC ABS. -/
def Obligations.TickOfIncAbs : Prop :=
  defaultTable.lookup 0xEE = some ⟨.inc, .abs⟩ ∧
  ∀ s : State, s.dt.lookup (codeByte s 0) = some ⟨.inc, .abs⟩ →
    TickSpec s 3 6 (BitVec.ofNat 16 ((codeByte s 2).toNat * 256 + (codeByte s 1).toNat)) plusOne

/-- R104: INC ABSI. -/
def Obligations.TickOfIncAbsi : Prop :=
  defaultTable.lookup 0xFE = some ⟨.inc, .absi⟩ ∧
  ∀ s : State, s.dt.lookup (codeByte s 0) = some ⟨.inc, .absi⟩ →
    TickSpec s 4 7
      (BitVec.ofNat 16 (((codeByte s 2).toNat * 256 + (codeByte s 1).toNat + (codeByte s 3).toNat) % 65536)) plusOne

/-- R106: DEC ZP. -/
def Obligations.TickOfDecZp : Prop :=
  defaultTable.lookup 0xC6 = some ⟨.dec, .zp⟩ ∧
  ∀ s : State, s.dt.lookup (codeByte s 0) = some ⟨.dec, .zp⟩ →
    TickSpec s 2 5 (BitVec.ofNat 16 (codeByte s 1).toNat) minusOne

/-- R107: DEC ZPI. -/
def Obligations.TickOfDecZpi : Prop :=
  defaultTable.lookup 0xD6 = some ⟨.dec, .zpi⟩ ∧
  ∀ s : State, s.dt.lookup (codeByte s 0) = some ⟨.dec, .zpi⟩ →
    TickSpec s 3 6 (BitVec.ofNat 16 (((codeByte s 1).toNat + (codeByte s 2).toNat) % 256)) minusOne

/-- R108: DEC ABS. -/
def Obligations.TickOfDecAbs : Prop :=
  defaultTable.lookup 0xCE = some ⟨.dec, .abs⟩ ∧
  ∀ s : State, s.dt.lookup (codeByte s 0) = some ⟨.dec, .abs⟩ →
    TickSpec s 3 6 (BitVec.ofNat 16 ((codeByte s 2).toNat * 256 + (codeByte s 1).toNat)) minusOne

/-- R109: DEC ABSI. -/
def Obligations.TickOfDecAbsi : Prop :=
  defaultTable.lookup 0xDE = some ⟨.dec, .absi⟩ ∧
  ∀ s : State, s.dt.lookup (codeByte s 0) = some ⟨.dec, .absi⟩ →
    TickSpec s 4 7
      (BitVec.ofNat 16 (((codeByte s 2).toNat * 256 + (codeByte s 1).toNat + (codeByte s 3).toNat) % 65536)) minusOne

/-! ### The meanings -/

/-- Completion of the increment family: on a bus that answers the data read and the data write, `exec` of each of the
four INC instructions, with any operand bytes in any state, answers the next state R101 to R104 give. -/
def Obligations.IncMeaningsComplete : Prop :=
  ∀ s : State, s.busDelivers 2 = true →
    (∀ zp, ExecDone (.incZp zp) s 5 (BitVec.ofNat 16 zp.toNat) plusOne) ∧
    (∀ base index, ExecDone (.incZpi base index) s 6 (BitVec.ofNat 16 ((base.toNat + index.toNat) % 256)) plusOne) ∧
    (∀ low high, ExecDone (.incAbs low high) s 6 (BitVec.ofNat 16 (high.toNat * 256 + low.toNat)) plusOne) ∧
    (∀ low high index, ExecDone (.incAbsi low high index) s 7
      (BitVec.ofNat 16 ((high.toNat * 256 + low.toNat + index.toNat) % 65536)) plusOne)

/-- Completion of the decrement family: on a bus that answers the data read and the data write, `exec` of each of the
four DEC instructions, with any operand bytes in any state, answers the next state R106 to R109 give. -/
def Obligations.DecMeaningsComplete : Prop :=
  ∀ s : State, s.busDelivers 2 = true →
    (∀ zp, ExecDone (.decZp zp) s 5 (BitVec.ofNat 16 zp.toNat) minusOne) ∧
    (∀ base index, ExecDone (.decZpi base index) s 6 (BitVec.ofNat 16 ((base.toNat + index.toNat) % 256)) minusOne) ∧
    (∀ low high, ExecDone (.decAbs low high) s 6 (BitVec.ofNat 16 (high.toNat * 256 + low.toNat)) minusOne) ∧
    (∀ low high index, ExecDone (.decAbsi low high index) s 7
      (BitVec.ofNat 16 ((high.toNat * 256 + low.toNat + index.toNat) % 65536)) minusOne)

/-- The frame of all eight meanings: what is left unchanged when `exec` gives a next state. The one byte stored to is
the one at the effective address of the operands. -/
def Obligations.MeaningFrame : Prop :=
  ∀ (i : Instr) (s t : State), exec i s = .next t →
    (t.a = s.a ∧ t.x = s.x ∧ t.y = s.y ∧ t.sp = s.sp ∧ t.pc = s.pc) ∧
    (t.p.v = s.p.v ∧ t.p.b = s.p.b ∧ t.p.d = s.p.d ∧ t.p.i = s.p.i ∧ t.p.c = s.p.c) ∧
    (t.dt = s.dt ∧ t.busCanFail = s.busCanFail) ∧
    ∀ addr, addr ≠ resolve i.operands → t.mem.read addr = s.mem.read addr

/-- R100, R105: the only exception a dispatched instruction meets is `BusFailure` at its effective address, and only on
a bus that does not answer its two transactions; on such a bus it always stops so. It is never refused. -/
def Obligations.MeaningsStopOnlyOnBusFailure : Prop :=
  ∀ (i : Instr) (s : State),
    (∀ r, exec i s = .fault r →
      s.busDelivers 2 = false ∧ ∃ dir after, r = .busFailure (resolve i.operands) dir after) ∧
    (s.busDelivers 2 = false → ∃ dir after, exec i s = .fault (.busFailure (resolve i.operands) dir after)) ∧
    ∀ refusal, exec i s ≠ .refused refusal

/-- A decrement undoes an increment of the same operands, and the other way round: memory is the same data again. The
inverse of R96 is an inference that rule marks as its own; that the second instruction reads back what the first wrote
is R134 and R39 (3), "with an ordinary memory behind the bus", which is the MODEL's choice (notes/assumptions/4.md); that
memories which read alike are equal data rests on the canonical form, its choice too (notes/assumptions/3.md). -/
def Obligations.IncAndDecUndoEachOther : Prop :=
  ∀ (o : Operands) (s t u : State), Memory.wf s.mem = true →
    (exec (Instr.ofOperands .inc o) s = .next t → exec (Instr.ofOperands .dec o) t = .next u → u.mem = s.mem) ∧
    (exec (Instr.ofOperands .dec o) s = .next t → exec (Instr.ofOperands .inc o) t = .next u → u.mem = s.mem)

/-! ### The tick -/

/-- R72, the spec's decision D7: the outcome is one of three and never a refusal; `Ok` carries 5, 6 or 7; `BusFailure` only if `BUS_CAN_FAIL`. -/
def Obligations.OutcomeIsOneOfThree : Prop :=
  ∀ s : State,
    (∃ t, step s = .next t ∧ t.cycles.toNat ∈ [5, 6, 7]) ∨
    (∃ op addr after, step s = .fault (.illegalOpcode op addr after)) ∨
    (s.busCanFail = true ∧ ∃ addr dir after, step s = .fault (.busFailure addr dir after))

/-- R77: a completed tick leaves `PC` after the last operand byte of an instruction the table holds. -/
def Obligations.SequentialAdvanceOfPc : Prop :=
  ∀ s t : State, step s = .next t →
    ∃ v, s.dt.lookup (codeByte s 0) = some v ∧
      t.pc.toNat = (s.pc.toNat + 1 + v.mode.operandBytes) % 65536 ∧
      v.mode.operandBytes = (match v.mode with | .zp => 1 | .zpi => 2 | .abs => 2 | .absi => 3)

/-- R79: the count of a completed tick depends on the addressing mode only. -/
def Obligations.CycleCountByMode : Prop :=
  ∀ s t : State, step s = .next t →
    ∃ v, s.dt.lookup (codeByte s 0) = some v ∧
      t.cycles.toNat = (match v.mode with | .zp => 5 | .zpi => 6 | .abs => 6 | .absi => 7)

/-- R36: the transactions of a completed tick, with what each carried; an unregistered opcode performs the first
only. -/
def Obligations.TransactionsOfATick : Prop :=
  (∀ s t : State, step s = .next t →
    ∃ v, s.dt.lookup (codeByte s 0) = some v ∧
      t.trace = fetchEvents s (1 + v.mode.operandBytes) ++
        dataEvents s (resolve (operandsAt s v.mode)) (alu v.operation (s.mem.read (resolve (operandsAt s v.mode))))) ∧
  ∀ (s : State) (op : Byte) (addr : Word) (after : State), step s = .fault (.illegalOpcode op addr after) →
    after.trace = [.read s.pc (some (codeByte s 0))]

/-- R143, which the spec derives: every tick ends in one of the outcomes after at most six transactions. -/
def Obligations.AtMostSixTransactions : Prop :=
  ∀ s : State, ∃ u, stateAfter (step s) = some u ∧ u.trace.length ≤ 6

/-- R11: no tick reads or writes `A`, whatever its outcome: with another value in it the tick has the same outcome,
with that value still there. -/
def Obligations.AccumulatorIsInert : Prop :=
  ∀ (s : State) (a : Byte), step { s with a := a } = mapState (fun u => { u with a := a }) (step s)

/-- R12, R14, inferences the spec marks as its own: no tick reads or writes `X`, `Y` or `SP`, whatever its outcome. -/
def Obligations.IndexRegistersAndStackPointerAreInert : Prop :=
  ∀ (s : State) (x y sp : Byte),
    step { s with x := x, y := y, sp := sp } = mapState (fun u => { u with x := x, y := y, sp := sp }) (step s)

/-- The outputs of one tick are no input of the next: the model's two output fields are never read
(notes/assumptions/8.md, 9.md). -/
def Obligations.OutputsAreNeverRead : Prop :=
  ∀ (s : State) (trace : List BusEvent) (cycles : Byte), step { s with trace := trace, cycles := cycles } = step s

/-- R42, which the spec derives (decision D19): the next tick fetches its opcode from memory as this tick left it: the byte just written where `PC` points at
it, the old byte elsewhere. -/
def Obligations.NextFetchSeesTheStore : Prop :=
  ∀ (s t u : State) (v : InstrValue), s.dt.lookup (codeByte s 0) = some v → step s = .next t → step t = .next u →
    let ea := resolve (operandsAt s v.mode)
    u.trace.head? = some (.read t.pc (some
      (if t.pc = ea then alu v.operation (s.mem.read ea) else s.mem.read t.pc)))

/-! ### Errors -/

/-- R111: an unregistered byte fetched at `PC` ends the tick with `IllegalOpcode`; no handler runs, one transaction and
no write. -/
def Obligations.UnregisteredOpcodeEndsTheTick : Prop :=
  ∀ s : State, s.dt.lookup (codeByte s 0) = none → s.busDelivers 1 = true →
    ∃ after, step s = .fault (.illegalOpcode (codeByte s 0) s.pc after) ∧
      after.trace = [.read s.pc (some (codeByte s 0))] ∧ after.mem = s.mem

/-- R112, the spec's decision D6: exactly a delivered, unregistered opcode byte gives `IllegalOpcode`, with the byte and
its address, and the faulted state has `PC` one past the byte and everything else unchanged. -/
def Obligations.IllegalOpcodeTick : Prop :=
  ∀ (s : State) (op : Byte) (addr : Word) (after : State),
    step s = .fault (.illegalOpcode op addr after) ↔
      s.busDelivers 1 = true ∧ s.dt.lookup (codeByte s 0) = none ∧ op = codeByte s 0 ∧ addr = s.pc ∧
      after = { s with
        pc := s.pc + 1
        trace := [.read s.pc (some (codeByte s 0))]
        answers := s.answers.drop 1
        cycles := 0 }

/-- R119, the spec's decision D9: a failed opcode fetch changes nothing and is no illegal opcode. -/
def Obligations.OpcodeFetchFailure : Prop :=
  ∀ s : State, s.busFailsAfter 0 = true →
    ∃ u, step s = .fault (.busFailure s.pc .read u) ∧ u.pc = s.pc ∧ Untouched s u ∧ u.trace = [.read s.pc none]

/-- R120, the spec's decisions D9 and D22: a failed read of operand byte `k` stops at `p + k` with `PC` there; a failed data read stops at the effective
address with `PC` past the instruction; nothing else has changed in both. -/
def Obligations.OperandOrDataReadFailure : Prop :=
  ∀ (s : State) (v : InstrValue), s.dt.lookup (codeByte s 0) = some v →
    (∀ k, 1 ≤ k → k ≤ v.mode.operandBytes → s.busFailsAfter k = true →
      ∃ u, step s = .fault (.busFailure (s.pc + BitVec.ofNat 16 k) .read u) ∧
        u.pc = s.pc + BitVec.ofNat 16 k ∧ Untouched s u) ∧
    (s.busFailsAfter (1 + v.mode.operandBytes) = true →
      ∃ u, step s = .fault (.busFailure (resolve (operandsAt s v.mode)) .read u) ∧
        u.pc = s.pc + BitVec.ofNat 16 (1 + v.mode.operandBytes) ∧ Untouched s u)

/-- R121, the spec's decision D9: a failed data write leaves the flags and every register but `PC` as before, and every cell but the addressed
one; of that cell nothing is claimed. -/
def Obligations.DataWriteFailure : Prop :=
  ∀ (s : State) (v : InstrValue), s.dt.lookup (codeByte s 0) = some v →
    s.busFailsAfter (2 + v.mode.operandBytes) = true →
    ∃ u, step s = .fault (.busFailure (resolve (operandsAt s v.mode)) .write u) ∧
      u.pc = s.pc + BitVec.ofNat 16 (1 + v.mode.operandBytes) ∧ u.p = s.p ∧
      (u.a = s.a ∧ u.x = s.x ∧ u.y = s.y ∧ u.sp = s.sp) ∧ (u.dt = s.dt ∧ u.busCanFail = s.busCanFail) ∧
      ∀ addr, addr ≠ resolve (operandsAt s v.mode) → u.mem.read addr = s.mem.read addr

/-- R113, the spec's decisions D7 and D8: the codes 0, 1 and 2; a tick that stops reports no count, and 0 is driven where one must be. -/
def Obligations.ReportOfAnOutcome : Prop :=
  (∀ t : State, ∃ r, report (.next t) = some r ∧ r.code = 0 ∧ r = .ok t.cycles ∧ r.drivenCycles = t.cycles) ∧
  (∀ (op : Byte) (addr : Word) (u : State), ∃ r, report (.fault (.illegalOpcode op addr u)) = some r ∧
    r = .illegalOpcode op addr ∧ r.code = 1 ∧ r.drivenCycles = 0) ∧
  (∀ (addr : Word) (dir : BusDir) (u : State), ∃ r, report (.fault (.busFailure addr dir u)) = some r ∧
    r = .busFailure addr dir ∧ r.code = 2 ∧ r.drivenCycles = 0) ∧
  ∀ (s : State) (r : Fault), step s = .fault r → r.after.cycles = 0

/-! ### The dispatch table -/

/-- R75: no tick, completed or not, changes the dispatch table. -/
def Obligations.DispatchTableIsImmutable : Prop :=
  ∀ s u : State, stateAfter (step s) = some u → u.dt = s.dt ∧ u.busCanFail = s.busCanFail

/-- R76, with the spec's decisions D10 and D29: a free byte is registered and no other byte's answer changes; a second
registration of one of the eight is rejected and the table keeps the first handler; a handler outside the eight is
refused. That it is refused for a byte already registered too is the MODEL's choice (notes/assumptions/16.md). -/
def Obligations.RegisterKeepsTheFirstHandler : Prop :=
  ∀ (table : DispatchTable) (op : Byte),
    (∀ v, table.lookup op = none →
      ∃ table', register table op (.value v) = .accepted table' ∧ table'.lookup op = some v ∧
        ∀ other, other ≠ op → table'.lookup other = table.lookup other) ∧
    (∀ v w, table.lookup op = some w → register table op (.value v) = .duplicate table) ∧
    register table op .outside = .refused

/-- A registration sequence that is not refused builds a table in canonical form that answers, for each byte, its
first registration (R73, R75; the spec's decision D10). -/
def Obligations.BuiltTableAnswersFirstRegistration : Prop :=
  ∀ (regs : List (Byte × Handler)) (table : DispatchTable) (reported : List Byte),
    buildTable [] regs = some (table, reported) →
    table.wf = true ∧
    ∀ op, table.lookup op = (regs.find? fun e => decide (e.1 = op)).bind fun e => e.2.toValue

/-- The order of two registrations of different free bytes does not matter (D10). -/
def Obligations.RegistrationOrderDoesNotMatter : Prop :=
  ∀ (table : DispatchTable) (op op' : Byte) (v v' : InstrValue),
    op ≠ op' → table.lookup op = none → table.lookup op' = none →
    buildTable table [(op, .value v), (op', .value v')] = buildTable table [(op', .value v'), (op, .value v)]

/-! ### Reset and the host's side -/

/-- R130, R131, the spec's decisions D4 and D5: construction produces the state `INIT`, with the table and the memory it
is given, and the first transaction of the first tick is the read at `INIT.PC`. That holds whatever answers the bus will
give, not only for the empty list `State.construct` sets (notes/assumptions/5.md): the read delivers the byte of the
memory behind the bus (notes/assumptions/4.md) or, on a bus that fails it, none (R118). -/
def Obligations.ConstructionProducesInit : Prop :=
  ∀ (init : Init) (dt : DispatchTable) (busCanFail : Bool) (mem : Memory) (answers : List BusAnswer),
    let s := { State.construct init dt busCanFail mem with answers := answers }
    (s.a = init.a ∧ s.x = init.x ∧ s.y = init.y ∧ s.sp = init.sp ∧ s.pc = init.pc ∧ s.p = init.p ∧
      s.dt = dt ∧ s.mem = mem) ∧
    ∃ u, stateAfter (step s) = some u ∧
      u.trace.head? = some (.read init.pc (if s.busFails then none else some (Memory.read mem init.pc)))

/-- The MODEL's choice of reset values (notes/assumptions/1.md, 2.md, 3.md): zero in every register and flag, the
default table, no memory cell listed. -/
def Obligations.ModelsChoiceOfResetValues : Prop :=
  State.reset.a = 0 ∧ State.reset.x = 0 ∧ State.reset.y = 0 ∧ State.reset.sp = 0 ∧ State.reset.pc = 0 ∧
  State.reset.p = ⟨false, false, false, false, false, false, false⟩ ∧
  State.reset.dt = defaultTable ∧ State.reset.mem = []

/-- R17, R18: a host write stores the value modulo the register's width and touches no other register. -/
def Obligations.HostWritesAreMasked : Prop :=
  ∀ (s : State) (value : Nat),
    (∀ r : Reg, ((s.setReg r value).getReg r).toNat = value % 256 ∧
      (∀ other, other ≠ r → (s.setReg r value).getReg other = s.getReg other) ∧
      (s.setReg r value).pc = s.pc ∧ (s.setReg r value).p = s.p ∧ (s.setReg r value).mem = s.mem) ∧
    (s.setPc value).pc.toNat = value % 65536 ∧ (∀ r : Reg, (s.setPc value).getReg r = s.getReg r) ∧
    (s.setPc value).p = s.p ∧ (s.setPc value).mem = s.mem

/-- R18: a flag reads as set, no other flag changes, and setting a flag to the value it holds is a no-op. -/
def Obligations.FlagSettersAreIdempotent : Prop :=
  ∀ (s : State) (f : Flag) (value : Bool),
    (s.setFlag f value).getFlag f = value ∧
    (∀ other, other ≠ f → (s.setFlag f value).getFlag other = s.getFlag other) ∧
    s.setFlag f (s.getFlag f) = s ∧ (s.setFlag f value).setFlag f value = s.setFlag f value

/-- R15 (layout of decision D2): each named flag stands at its bit of the packed byte; the named constants. Bit 5 is
not mentioned. -/
def Obligations.PackedStatusLayout : Prop :=
  (∀ (s : State) (f : Flag), s.readPacked.1.getLsbD f.bit = s.getFlag f) ∧
  (Flag.negative.mask = 0x80 ∧ Flag.overflow.mask = 0x40 ∧ Flag.brk.mask = 0x10 ∧ Flag.decimal.mask = 0x08 ∧
    Flag.interruptDisable.mask = 0x04 ∧ Flag.zero.mask = 0x02 ∧ Flag.carry.mask = 0x01)

/-! ### Invariants and runs -/

/-- The invariant holds of the reset state. -/
def Obligations.ResetMeetsTheInvariant : Prop := Inv State.reset

/-- Every tick keeps the invariant, from every state that meets it; also a tick that stops, in the faulted state it
leaves. -/
def Obligations.EveryTickKeepsTheInvariant : Prop :=
  ∀ s u : State, Inv s → stateAfter (step s) = some u → Inv u

/-- The canonical form is canonical: two memories that read alike everywhere are equal data
(notes/assumptions/3.md). -/
def Obligations.MemoriesThatReadAlikeAreEqual : Prop :=
  ∀ m m' : Memory, Memory.wf m = true → Memory.wf m' = true → (∀ addr, Memory.read m addr = Memory.read m' addr) →
    m = m'

/-- R79, R126: the caller's sum over `n` completed ticks lies between 5n and 7n, and there is a sum exactly when the
`n` ticks complete. -/
def Obligations.ElapsedCyclesOfARun : Prop :=
  ∀ (n : Nat) (s : State),
    (∀ total, elapsedCycles n s = some total → 5 * n ≤ total ∧ total ≤ 7 * n) ∧
    ((elapsedCycles n s).isSome = true ↔ ∃ t, Completes n s t)

/-- Over a completed run of any length: `A`, `X`, `Y`, `SP`, the five flags no instruction writes, and the parameters
are as at its start (R11, R12, R14, R16, R75). -/
def Obligations.RunsKeepWhatNoInstructionWrites : Prop :=
  ∀ (n : Nat) (s t : State), Completes n s t →
    (t.a = s.a ∧ t.x = s.x ∧ t.y = s.y ∧ t.sp = s.sp) ∧
    (t.p.v = s.p.v ∧ t.p.b = s.p.b ∧ t.p.d = s.p.d ∧ t.p.i = s.p.i ∧ t.p.c = s.p.c) ∧
    t.dt = s.dt ∧ t.busCanFail = s.busCanFail
end

