-- ==== Sys2Proof/Laws/Memory.lean ====
section
/-! SUPPORT. The laws of memory: a read after a write, and the canonical form kept by every operation. -/

namespace Sys2Proof.Machine

/-! ### A read after a write -/

theorem Memory.read_insert_same (m : Memory) (addr : Word) (v : Byte) :
    Memory.read (Memory.insert m addr v) addr = v := by
  induction m with
  | nil => simp [Memory.insert, Memory.read]
  | cons cell rest ih =>
    obtain ⟨k, b⟩ := cell
    simp only [Memory.insert]
    split
    · simp [Memory.read, *]
    · split
      · simp [Memory.read]
      · simp [Memory.read, *]

theorem Memory.read_insert_other (m : Memory) {addr other : Word} (h : other ≠ addr) (v : Byte) :
    Memory.read (Memory.insert m addr v) other = Memory.read m other := by
  have hne : ¬addr.toNat = other.toNat := fun e => h (BitVec.eq_of_toNat_eq e.symm)
  induction m with
  | nil => simp [Memory.insert, Memory.read, hne]
  | cons cell rest ih =>
    obtain ⟨k, b⟩ := cell
    simp only [Memory.insert]
    split
    · rename_i hk
      subst hk
      simp [Memory.read, hne]
    · split
      · simp [Memory.read, hne]
      · simp [Memory.read, ih]

theorem Memory.read_erase_same (m : Memory) (addr : Word) :
    Memory.read (Memory.erase m addr) addr = Memory.unlisted := by
  induction m with
  | nil => rfl
  | cons cell rest ih =>
    obtain ⟨k, b⟩ := cell
    by_cases hk : k = addr.toNat
    · simpa [Memory.erase, List.filter_cons, hk] using ih
    · simpa [Memory.erase, List.filter_cons, hk, Memory.read] using ih

theorem Memory.read_erase_other (m : Memory) {addr other : Word} (h : other ≠ addr) :
    Memory.read (Memory.erase m addr) other = Memory.read m other := by
  have hne : ¬addr.toNat = other.toNat := fun e => h (BitVec.eq_of_toNat_eq e.symm)
  induction m with
  | nil => rfl
  | cons cell rest ih =>
    obtain ⟨k, b⟩ := cell
    by_cases hk : k = addr.toNat
    · simpa [Memory.erase, List.filter_cons, hk, Memory.read, hne] using ih
    · simp only [Memory.erase, List.filter_cons, ne_eq, hk, not_false_eq_true, decide_true, if_true,
        Memory.read]
      split
      · rfl
      · exact ih

/-- A cell holds the byte last written to it. -/
@[simp] theorem Memory.read_write_same (m : Memory) (addr : Word) (v : Byte) :
    Memory.read (Memory.write m addr v) addr = v := by
  unfold Memory.write
  split
  · rename_i hv
    rw [hv, Memory.read_erase_same]
  · exact Memory.read_insert_same m addr v

/-- A write leaves every other cell alone. -/
theorem Memory.read_write_other (m : Memory) {addr other : Word} (h : other ≠ addr) (v : Byte) :
    Memory.read (Memory.write m addr v) other = Memory.read m other := by
  unfold Memory.write
  split
  · exact Memory.read_erase_other m h
  · exact Memory.read_insert_other m h v

/-- Both laws at once. -/
theorem Memory.read_write (m : Memory) (addr other : Word) (v : Byte) :
    Memory.read (Memory.write m addr v) other = if other = addr then v else Memory.read m other := by
  split
  · rename_i h
    rw [h, Memory.read_write_same]
  · rename_i h
    exact Memory.read_write_other m h v

/-! ### The canonical form -/

/-- The canonical form, said of the whole list at once. -/
theorem Memory.wf_iff (m : Memory) :
    Memory.wf m = true ↔
      m.Pairwise (fun c c' => c.1 < c'.1) ∧ ∀ c ∈ m, c.1 < 65536 ∧ c.2 ≠ Memory.unlisted := by
  induction m with
  | nil => simp [Memory.wf]
  | cons cell rest ih =>
    obtain ⟨k, b⟩ := cell
    cases rest with
    | nil => simp [Memory.wf]
    | cons cell' rest =>
      obtain ⟨k', b'⟩ := cell'
      simp only [Memory.wf, Bool.and_eq_true, decide_eq_true_eq, ih, List.pairwise_cons, List.mem_cons,
        forall_eq_or_imp]
      constructor
      · rintro ⟨⟨hk, hb⟩, ⟨h1, h2⟩, ⟨h3, h4⟩, h5⟩
        exact ⟨⟨⟨hk, fun c hc => Nat.lt_trans hk (h1 c hc)⟩, h1, h2⟩, ⟨Nat.lt_trans hk h3, hb⟩, ⟨h3, h4⟩, h5⟩
      · rintro ⟨⟨⟨hk, _⟩, h1, h2⟩, ⟨_, hb⟩, h3, h5⟩
        exact ⟨⟨hk, hb⟩, ⟨h1, h2⟩, h3, h5⟩

theorem Memory.wf_erase {m : Memory} (h : Memory.wf m = true) (addr : Word) :
    Memory.wf (Memory.erase m addr) = true := by
  rw [Memory.wf_iff] at h ⊢
  exact ⟨h.1.filter _, fun c hc => h.2 c (List.mem_of_mem_filter hc)⟩

theorem Memory.mem_insert {m : Memory} {addr : Word} {v : Byte} {c : Host.Cell}
    (h : c ∈ Memory.insert m addr v) : c = (addr.toNat, v) ∨ c ∈ m := by
  induction m with
  | nil => simpa [Memory.insert] using h
  | cons cell rest ih =>
    obtain ⟨k, b⟩ := cell
    simp only [Memory.insert] at h
    split at h
    · rename_i hk
      rcases List.mem_cons.1 h with h | h
      · exact .inl (hk ▸ h)
      · exact .inr (List.mem_cons_of_mem _ h)
    · split at h
      · exact List.mem_cons.1 h
      · rcases List.mem_cons.1 h with h | h
        · exact .inr (h ▸ List.mem_cons_self)
        · exact (ih h).imp_right (List.mem_cons_of_mem _)

theorem Memory.wf_insert {m : Memory} (h : Memory.wf m = true) (addr : Word) {v : Byte}
    (hv : v ≠ Memory.unlisted) : Memory.wf (Memory.insert m addr v) = true := by
  rw [Memory.wf_iff] at h ⊢
  refine ⟨?_, fun c hc => ?_⟩
  · obtain ⟨h, -⟩ := h
    induction m with
    | nil => simp [Memory.insert]
    | cons cell rest ih =>
      obtain ⟨k, b⟩ := cell
      rw [List.pairwise_cons] at h
      simp only [Memory.insert]
      split
      · exact List.pairwise_cons.2 h
      · split
        · rename_i hlt
          refine List.pairwise_cons.2 ⟨fun c hc => ?_, List.pairwise_cons.2 h⟩
          rcases List.mem_cons.1 hc with hc | hc
          · exact hc ▸ hlt
          · exact Nat.lt_trans hlt (h.1 c hc)
        · refine List.pairwise_cons.2 ⟨fun c hc => ?_, ih h.2⟩
          rcases Memory.mem_insert hc with hc | hc
          · subst hc
            show k < addr.toNat
            omega
          · exact h.1 c hc
  · rcases Memory.mem_insert hc with hc | hc
    · subst hc
      exact ⟨addr.isLt, hv⟩
    · exact h.2 c hc

/-- Every write keeps the canonical form. -/
theorem Memory.wf_write {m : Memory} (h : Memory.wf m = true) (addr : Word) (v : Byte) :
    Memory.wf (Memory.write m addr v) = true := by
  unfold Memory.write
  split
  · exact Memory.wf_erase h addr
  · exact Memory.wf_insert h addr ‹_›

/-- Reset memory is in canonical form. -/
theorem Memory.wf_reset : Memory.wf State.reset.mem = true := rfl

end Sys2Proof.Machine
end

