-- ==== Sys2Proof/Laws/State.lean ====
section
/-! SUPPORT. One lemma per field per update of the state, true by definition, so that no proof unfolds a record
update. -/

namespace Sys2Proof.Machine

variable (s : State)

/-! ### beginTick -/

@[simp] theorem State.beginTick_a : s.beginTick.a = s.a := rfl
@[simp] theorem State.beginTick_x : s.beginTick.x = s.x := rfl
@[simp] theorem State.beginTick_y : s.beginTick.y = s.y := rfl
@[simp] theorem State.beginTick_sp : s.beginTick.sp = s.sp := rfl
@[simp] theorem State.beginTick_pc : s.beginTick.pc = s.pc := rfl
@[simp] theorem State.beginTick_p : s.beginTick.p = s.p := rfl
@[simp] theorem State.beginTick_mem : s.beginTick.mem = s.mem := rfl
@[simp] theorem State.beginTick_dt : s.beginTick.dt = s.dt := rfl
@[simp] theorem State.beginTick_busCanFail : s.beginTick.busCanFail = s.busCanFail := rfl
@[simp] theorem State.beginTick_answers : s.beginTick.answers = s.answers := rfl
@[simp] theorem State.beginTick_trace : s.beginTick.trace = [] := rfl
@[simp] theorem State.beginTick_cycles : s.beginTick.cycles = 0 := rfl
@[simp] theorem State.beginTick_draws : s.beginTick.draws = s.draws := rfl

/-! ### advancePc -/

@[simp] theorem State.advancePc_a : s.advancePc.a = s.a := rfl
@[simp] theorem State.advancePc_x : s.advancePc.x = s.x := rfl
@[simp] theorem State.advancePc_y : s.advancePc.y = s.y := rfl
@[simp] theorem State.advancePc_sp : s.advancePc.sp = s.sp := rfl
@[simp] theorem State.advancePc_pc : s.advancePc.pc = s.pc + 1 := rfl
@[simp] theorem State.advancePc_p : s.advancePc.p = s.p := rfl
@[simp] theorem State.advancePc_mem : s.advancePc.mem = s.mem := rfl
@[simp] theorem State.advancePc_dt : s.advancePc.dt = s.dt := rfl
@[simp] theorem State.advancePc_busCanFail : s.advancePc.busCanFail = s.busCanFail := rfl
@[simp] theorem State.advancePc_answers : s.advancePc.answers = s.answers := rfl
@[simp] theorem State.advancePc_trace : s.advancePc.trace = s.trace := rfl
@[simp] theorem State.advancePc_cycles : s.advancePc.cycles = s.cycles := rfl
@[simp] theorem State.advancePc_draws : s.advancePc.draws = s.draws := rfl

/-! ### issue -/

@[simp] theorem State.issue_a (e : BusEvent) : (s.issue e).a = s.a := rfl
@[simp] theorem State.issue_x (e : BusEvent) : (s.issue e).x = s.x := rfl
@[simp] theorem State.issue_y (e : BusEvent) : (s.issue e).y = s.y := rfl
@[simp] theorem State.issue_sp (e : BusEvent) : (s.issue e).sp = s.sp := rfl
@[simp] theorem State.issue_pc (e : BusEvent) : (s.issue e).pc = s.pc := rfl
@[simp] theorem State.issue_p (e : BusEvent) : (s.issue e).p = s.p := rfl
@[simp] theorem State.issue_mem (e : BusEvent) : (s.issue e).mem = s.mem := rfl
@[simp] theorem State.issue_dt (e : BusEvent) : (s.issue e).dt = s.dt := rfl
@[simp] theorem State.issue_busCanFail (e : BusEvent) : (s.issue e).busCanFail = s.busCanFail := rfl
@[simp] theorem State.issue_answers (e : BusEvent) : (s.issue e).answers = s.answers.tail := rfl
@[simp] theorem State.issue_trace (e : BusEvent) : (s.issue e).trace = s.trace ++ [e] := rfl
@[simp] theorem State.issue_cycles (e : BusEvent) : (s.issue e).cycles = s.cycles := rfl
@[simp] theorem State.issue_draws (e : BusEvent) : (s.issue e).draws = s.draws := rfl

/-! ### store -/

@[simp] theorem State.store_a (addr : Word) (v : Byte) : (s.store addr v).a = s.a := rfl
@[simp] theorem State.store_x (addr : Word) (v : Byte) : (s.store addr v).x = s.x := rfl
@[simp] theorem State.store_y (addr : Word) (v : Byte) : (s.store addr v).y = s.y := rfl
@[simp] theorem State.store_sp (addr : Word) (v : Byte) : (s.store addr v).sp = s.sp := rfl
@[simp] theorem State.store_pc (addr : Word) (v : Byte) : (s.store addr v).pc = s.pc := rfl
@[simp] theorem State.store_p (addr : Word) (v : Byte) : (s.store addr v).p = s.p := rfl
@[simp] theorem State.store_mem (addr : Word) (v : Byte) : (s.store addr v).mem = s.mem.write addr v := rfl
@[simp] theorem State.store_dt (addr : Word) (v : Byte) : (s.store addr v).dt = s.dt := rfl
@[simp] theorem State.store_busCanFail (addr : Word) (v : Byte) : (s.store addr v).busCanFail = s.busCanFail := rfl
@[simp] theorem State.store_answers (addr : Word) (v : Byte) : (s.store addr v).answers = s.answers := rfl
@[simp] theorem State.store_trace (addr : Word) (v : Byte) : (s.store addr v).trace = s.trace := rfl
@[simp] theorem State.store_cycles (addr : Word) (v : Byte) : (s.store addr v).cycles = s.cycles := rfl
@[simp] theorem State.store_draws (addr : Word) (v : Byte) : (s.store addr v).draws = s.draws := rfl

/-! ### scramble -/

@[simp] theorem State.scramble_a (addr : Word) : (s.scramble addr).a = s.a := rfl
@[simp] theorem State.scramble_x (addr : Word) : (s.scramble addr).x = s.x := rfl
@[simp] theorem State.scramble_y (addr : Word) : (s.scramble addr).y = s.y := rfl
@[simp] theorem State.scramble_sp (addr : Word) : (s.scramble addr).sp = s.sp := rfl
@[simp] theorem State.scramble_pc (addr : Word) : (s.scramble addr).pc = s.pc := rfl
@[simp] theorem State.scramble_p (addr : Word) : (s.scramble addr).p = s.p := rfl
@[simp] theorem State.scramble_mem (addr : Word) : (s.scramble addr).mem = s.mem.write addr (Config.failedWriteCell s.draws) := rfl
@[simp] theorem State.scramble_dt (addr : Word) : (s.scramble addr).dt = s.dt := rfl
@[simp] theorem State.scramble_busCanFail (addr : Word) : (s.scramble addr).busCanFail = s.busCanFail := rfl
@[simp] theorem State.scramble_answers (addr : Word) : (s.scramble addr).answers = s.answers := rfl
@[simp] theorem State.scramble_trace (addr : Word) : (s.scramble addr).trace = s.trace := rfl
@[simp] theorem State.scramble_cycles (addr : Word) : (s.scramble addr).cycles = s.cycles := rfl
@[simp] theorem State.scramble_draws (addr : Word) : (s.scramble addr).draws = s.draws + 1 := rfl

/-! ### complete -/

@[simp] theorem State.complete_a (r c : Byte) : (s.complete r c).a = s.a := rfl
@[simp] theorem State.complete_x (r c : Byte) : (s.complete r c).x = s.x := rfl
@[simp] theorem State.complete_y (r c : Byte) : (s.complete r c).y = s.y := rfl
@[simp] theorem State.complete_sp (r c : Byte) : (s.complete r c).sp = s.sp := rfl
@[simp] theorem State.complete_pc (r c : Byte) : (s.complete r c).pc = s.pc := rfl
@[simp] theorem State.complete_p (r c : Byte) : (s.complete r c).p = updateNegativeZero r s.p := rfl
@[simp] theorem State.complete_mem (r c : Byte) : (s.complete r c).mem = s.mem := rfl
@[simp] theorem State.complete_dt (r c : Byte) : (s.complete r c).dt = s.dt := rfl
@[simp] theorem State.complete_busCanFail (r c : Byte) : (s.complete r c).busCanFail = s.busCanFail := rfl
@[simp] theorem State.complete_answers (r c : Byte) : (s.complete r c).answers = s.answers := rfl
@[simp] theorem State.complete_trace (r c : Byte) : (s.complete r c).trace = s.trace := rfl
@[simp] theorem State.complete_cycles (r c : Byte) : (s.complete r c).cycles = c := rfl
@[simp] theorem State.complete_draws (r c : Byte) : (s.complete r c).draws = s.draws := rfl

/-! ### dropCycles -/

@[simp] theorem State.dropCycles_a : s.dropCycles.a = s.a := rfl
@[simp] theorem State.dropCycles_x : s.dropCycles.x = s.x := rfl
@[simp] theorem State.dropCycles_y : s.dropCycles.y = s.y := rfl
@[simp] theorem State.dropCycles_sp : s.dropCycles.sp = s.sp := rfl
@[simp] theorem State.dropCycles_pc : s.dropCycles.pc = s.pc := rfl
@[simp] theorem State.dropCycles_p : s.dropCycles.p = s.p := rfl
@[simp] theorem State.dropCycles_mem : s.dropCycles.mem = s.mem := rfl
@[simp] theorem State.dropCycles_dt : s.dropCycles.dt = s.dt := rfl
@[simp] theorem State.dropCycles_busCanFail : s.dropCycles.busCanFail = s.busCanFail := rfl
@[simp] theorem State.dropCycles_answers : s.dropCycles.answers = s.answers := rfl
@[simp] theorem State.dropCycles_trace : s.dropCycles.trace = s.trace := rfl
@[simp] theorem State.dropCycles_cycles : s.dropCycles.cycles = 0 := rfl
@[simp] theorem State.dropCycles_draws : s.dropCycles.draws = s.draws := rfl

/-! ### taking an exception -/

@[simp] theorem takeException_after (c : Condition) : (takeException c s).after = s.dropCycles := by
  cases c <;> rfl

@[simp] theorem takeException_condition (c : Condition) : (takeException c s).condition = c := by
  cases c <;> rfl

/-! ### the flags -/

variable (r : Byte) (p : Flags)

@[simp] theorem updateNegativeZero_n : (updateNegativeZero r p).n = r.getLsbD 7 := rfl
@[simp] theorem updateNegativeZero_z : (updateNegativeZero r p).z = decide (r = 0) := rfl
@[simp] theorem updateNegativeZero_v : (updateNegativeZero r p).v = p.v := rfl
@[simp] theorem updateNegativeZero_b : (updateNegativeZero r p).b = p.b := rfl
@[simp] theorem updateNegativeZero_d : (updateNegativeZero r p).d = p.d := rfl
@[simp] theorem updateNegativeZero_i : (updateNegativeZero r p).i = p.i := rfl
@[simp] theorem updateNegativeZero_c : (updateNegativeZero r p).c = p.c := rfl

end Sys2Proof.Machine
end

