-- ==== Sys2Proof/Laws/Bus.lean ====
section
/-! SUPPORT. What each shared operation of Machine/Ops can do, said once: bus transactions, fetches and the handler
body, on a bus that answers and on one that fails. -/

namespace Sys2Proof.Machine

/-! ### The bus's answers -/

/-- The answers the bus gives decide which transactions fail, and nothing else does. -/
theorem State.busFails_congr {s t : State} (hc : t.busCanFail = s.busCanFail) (ha : t.answers = s.answers) :
    t.busFails = s.busFails := by
  simp [State.busFails, hc, ha]

/-- A bus that delivers one more transaction does not fail the next one. -/
theorem State.busFails_of_busDelivers {s : State} {n : Nat} (h : s.busDelivers (n + 1) = true) :
    s.busFails = false := by
  cases hl : s.answers with
  | nil => simp [State.busFails, hl]
  | cons answer rest =>
    cases hb : s.busCanFail
    · simp [State.busFails, hb]
    · have := h
      simp only [State.busDelivers, hl, hb, Bool.not_true, Bool.false_or, List.take_succ_cons, List.all_cons,
        Bool.and_eq_true, decide_eq_true_eq] at this
      simp [State.busFails, hl, this.1]

/-- After one delivered transaction the rest are still delivered. -/
theorem State.busDelivers_tail {s t : State} {n : Nat} (h : s.busDelivers (n + 1) = true)
    (hc : t.busCanFail = s.busCanFail) (ha : t.answers = s.answers.tail) : t.busDelivers n = true := by
  cases hl : s.answers with
  | nil => simp [State.busDelivers, ha, hl]
  | cons answer rest =>
    cases hb : s.busCanFail
    · simp [State.busDelivers, hc, hb]
    · simp only [State.busDelivers, hl, hb, Bool.not_true, Bool.false_or, List.take_succ_cons, List.all_cons,
        Bool.and_eq_true] at h
      simp [State.busDelivers, hc, hb, ha, hl, h.2]

/-- Zero transactions ahead of it, the failing one is the next. -/
@[simp] theorem State.busFailsAfter_zero (s : State) : s.busFailsAfter 0 = s.busFails := by
  simp [State.busFailsAfter, State.busFails, List.head?_eq_getElem?]

/-- With one more ahead of it, the next one is delivered. -/
theorem State.busFails_of_busFailsAfter {s : State} {n : Nat} (h : s.busFailsAfter (n + 1) = true) :
    s.busFails = false := by
  cases hl : s.answers with
  | nil => simp [State.busFails, hl]
  | cons answer rest =>
    simp only [State.busFailsAfter, hl, List.take_succ_cons, List.all_cons, Bool.and_eq_true,
      decide_eq_true_eq] at h
    simp [State.busFails, hl, h.1.2.1]

/-- After that delivered transaction the failing one is one nearer. -/
theorem State.busFailsAfter_tail {s t : State} {n : Nat} (h : s.busFailsAfter (n + 1) = true)
    (hc : t.busCanFail = s.busCanFail) (ha : t.answers = s.answers.tail) : t.busFailsAfter n = true := by
  cases hl : s.answers with
  | nil => simp [State.busFailsAfter, hl] at h
  | cons answer rest =>
    simp only [State.busFailsAfter, hl, List.take_succ_cons, List.all_cons, Bool.and_eq_true,
      decide_eq_true_eq, List.getElem?_cons_succ] at h
    simp only [State.busFailsAfter, hc, ha, hl, List.tail_cons, Bool.and_eq_true, decide_eq_true_eq]
    exact ⟨⟨h.1.1, h.1.2.2⟩, h.2⟩

/-- Either the next `n` transactions are all delivered, or there is a first one that fails. -/
theorem State.busDelivers_or_busFailsAfter (s : State) (n : Nat) :
    s.busDelivers n = true ∨ ∃ k < n, s.busFailsAfter k = true := by
  cases hb : s.busCanFail with
  | false => exact .inl (by simp [State.busDelivers, hb])
  | true =>
    induction n with
    | zero => exact .inl (by simp [State.busDelivers])
    | succ n ih =>
      rcases ih with ih | ⟨k, hk, h⟩
      · cases hn : s.answers[n]? with
        | none =>
          left
          have hlen : s.answers.length ≤ n := List.getElem?_eq_none_iff.1 hn
          have : s.answers.take (n + 1) = s.answers.take n := by
            rw [List.take_of_length_le hlen, List.take_of_length_le (Nat.le_succ_of_le hlen)]
          simpa [State.busDelivers, this] using ih
        | some answer =>
          simp only [State.busDelivers, hb, Bool.not_true, Bool.false_or] at ih
          cases answer with
          | done => exact .inl (by simp [State.busDelivers, hb, List.take_add_one, hn, List.all_append, ih])
          | failed => exact .inr ⟨n, Nat.lt_succ_self n, by simp [State.busFailsAfter, hb, ih, hn]⟩
      · exact .inr ⟨k, Nat.lt_succ_of_lt hk, h⟩

/-- A transaction among those delivered does not fail. -/
theorem State.not_busFailsAfter_of_busDelivers {s : State} {n k : Nat} (hk : k < n) (h : s.busDelivers n = true) :
    ¬s.busFailsAfter k = true := by
  induction n generalizing s k with
  | zero => omega
  | succ n ih =>
    intro hf
    cases k with
    | zero => simp [State.busFails_of_busDelivers h] at hf
    | succ k =>
      let t : State := { s with answers := s.answers.tail }
      exact ih (s := t) (by omega) (State.busDelivers_tail h rfl rfl) (State.busFailsAfter_tail hf rfl rfl)

/-- The first failing transaction is one: none before it fails. -/
theorem State.not_busFailsAfter_of_busFailsAfter {s : State} {n k : Nat} (hk : k < n)
    (h : s.busFailsAfter n = true) : ¬s.busFailsAfter k = true := by
  induction n generalizing s k with
  | zero => omega
  | succ n ih =>
    intro hf
    cases k with
    | zero => simp [State.busFails_of_busFailsAfter h] at hf
    | succ k =>
      let t : State := { s with answers := s.answers.tail }
      exact ih (s := t) (by omega) (State.busFailsAfter_tail h rfl rfl) (State.busFailsAfter_tail hf rfl rfl)

/-! ### One transaction -/

theorem memRead_delivered {s : State} (h : s.busFails = false) (addr : Word) :
    memRead addr s = .ok (s.mem.read addr) (s.issue (.read addr (some (s.mem.read addr)))) := by
  simp [memRead, h]

theorem memRead_failed {s : State} (h : s.busFails = true) (addr : Word) :
    memRead addr s = .fault (.busFailure addr .read (s.issue (.read addr none)).dropCycles) := by
  simp [memRead, h, takeException]

theorem memWrite_delivered {s : State} (h : s.busFails = false) (addr : Word) (v : Byte) :
    memWrite addr v s = .ok () ((s.issue (.write addr v true)).store addr v) := by
  simp [memWrite, h]

theorem memWrite_failed {s : State} (h : s.busFails = true) (addr : Word) (v : Byte) :
    memWrite addr v s =
      .fault (.busFailure addr .write ((s.issue (.write addr v false)).scramble addr).dropCycles) := by
  simp [memWrite, h, takeException]

/-! ### A byte fetched at the program counter -/

/-- The state after one delivered fetch. -/
def State.fetched (s : State) : State := (s.issue (.read s.pc (some (s.mem.read s.pc)))).advancePc

theorem fetchByte_delivered {s : State} (h : s.busFails = false) :
    fetchByte s = .ok (s.mem.read s.pc) s.fetched := by
  simp [fetchByte, memRead_delivered h, State.fetched]

theorem fetchByte_failed {s : State} (h : s.busFails = true) :
    fetchByte s = .fault (.busFailure s.pc .read (s.issue (.read s.pc none)).dropCycles) := by
  simp [fetchByte, memRead_failed h]

theorem fetchThen_delivered {α : Type} {s : State} (h : s.busFails = false) (next : Byte → State → TickPart α) :
    fetchThen s next = next (s.mem.read s.pc) s.fetched := by
  simp [fetchThen, fetchByte_delivered h]

theorem fetchThen_failed {α : Type} {s : State} (h : s.busFails = true) (next : Byte → State → TickPart α) :
    fetchThen s next = .fault (.busFailure s.pc .read (s.issue (.read s.pc none)).dropCycles) := by
  simp [fetchThen, fetchByte_failed h]

/-! ### The handler body -/

/-- The state the handler body leaves when both its transactions are delivered. -/
def handled (operation : Operation) (mode : Mode) (ea : Word) (s : State) : State :=
  let old := s.mem.read ea
  ((((s.issue (.read ea (some old))).issue (.write ea (alu operation old) true)).store ea
    (alu operation old)).complete (alu operation old) (modeCycles mode))

/-- Everything the handler body can do: complete, stop at its read, or stop at its write. -/
theorem handler_cases (operation : Operation) (mode : Mode) (ea : Word) (s : State) :
    (s.busDelivers 2 = true ∧ handler operation mode ea s = .next (handled operation mode ea s)) ∨
    (s.busFailsAfter 0 = true ∧ handler operation mode ea s =
      .fault (.busFailure ea .read (s.issue (.read ea none)).dropCycles)) ∨
    (s.busFailsAfter 1 = true ∧ handler operation mode ea s =
      .fault (.busFailure ea .write
        ((((s.issue (.read ea (some (s.mem.read ea)))).issue
          (.write ea (alu operation (s.mem.read ea)) false)).scramble ea).dropCycles))) := by
  rcases s.busDelivers_or_busFailsAfter 2 with h | ⟨k, hk, h⟩
  · left
    refine ⟨h, ?_⟩
    have h2 := State.busFails_of_busDelivers (n := 0)
      (State.busDelivers_tail (t := s.issue (.read ea (some (s.mem.read ea)))) h rfl rfl)
    simp [handler, memRead_delivered (State.busFails_of_busDelivers h), memWrite_delivered h2, handled]
  · match k, hk with
    | 0, _ =>
      right; left
      exact ⟨h, by simp [handler, memRead_failed (by simpa using h)]⟩
    | 1, _ =>
      right; right
      have h2 := State.busFailsAfter_tail (t := s.issue (.read ea (some (s.mem.read ea)))) h rfl rfl
      rw [State.busFailsAfter_zero] at h2
      exact ⟨h, by simp [handler, memRead_delivered (State.busFails_of_busFailsAfter h), memWrite_failed h2]⟩

/-- On a bus that answers, the handler body completes. -/
theorem handler_delivered {s : State} (h : s.busDelivers 2 = true) (operation : Operation) (mode : Mode) (ea : Word) :
    handler operation mode ea s = .next (handled operation mode ea s) := by
  have h2 := State.busFails_of_busDelivers (n := 0)
    (State.busDelivers_tail (t := s.issue (.read ea (some (s.mem.read ea)))) h rfl rfl)
  simp [handler, memRead_delivered (State.busFails_of_busDelivers h), memWrite_delivered h2, handled]

/-- A handler body that completed left exactly this state. -/
theorem handler_next {operation : Operation} {mode : Mode} {ea : Word} {s t : State}
    (h : handler operation mode ea s = .next t) : t = handled operation mode ea s := by
  rcases handler_cases operation mode ea s with ⟨_, h'⟩ | ⟨_, h'⟩ | ⟨_, h'⟩ <;> rw [h'] at h
  · injection h with h
    exact h.symm
  · cases h
  · cases h

end Sys2Proof.Machine
end

