-- ==== Sys2Proof/Laws/Exec.lean ====
section
/-! SUPPORT. The eight meanings are one handler body at the effective address of their operands; the instruction term
and the pair of its operation and operands determine each other. -/

namespace Sys2Proof.Machine

/-- Every arm of `exec` is the common handler body (R78). -/
theorem exec_eq_handler (i : Instr) (s : State) :
    exec i s = handler i.value.operation i.value.mode (resolve i.operands) s := by
  cases i <;> rfl

/-- A meaning that completed left exactly this state. -/
theorem exec_next {i : Instr} {s t : State} (h : exec i s = .next t) :
    t = handled i.value.operation i.value.mode (resolve i.operands) s :=
  handler_next (exec_eq_handler i s ▸ h)

@[simp] theorem ofOperands_operands (operation : Operation) (o : Operands) :
    (Instr.ofOperands operation o).operands = o := by
  cases operation <;> cases o <;> rfl

@[simp] theorem ofOperands_operation (operation : Operation) (o : Operands) :
    (Instr.ofOperands operation o).value.operation = operation := by
  cases operation <;> cases o <;> rfl

end Sys2Proof.Machine
end

