-- ==== Sys2Proof/Laws/Operands.lean ====
section
/-! SUPPORT. The 16-bit address of two operand bytes, as a number. -/

namespace Sys2Proof.Machine

/-- `{high, low}` is `high * 256 + low` (R7). -/
theorem wordOfBytes_toNat (high low : Byte) : (wordOfBytes high low).toNat = high.toNat * 256 + low.toNat := by
  have hl := low.isLt
  have hh := high.isLt
  have hor := Nat.shiftLeft_add_eq_or_of_lt (i := 8) hl high.toNat
  simp only [Nat.shiftLeft_eq] at hor
  simp only [wordOfBytes, BitVec.toNat_or, BitVec.toNat_shiftLeft, BitVec.toNat_setWidth, Nat.shiftLeft_eq]
  rw [Nat.mod_eq_of_lt (a := high.toNat) (by omega), Nat.mod_eq_of_lt (a := low.toNat) (by omega),
    Nat.mod_eq_of_lt (by omega), ← hor]

end Sys2Proof.Machine
end

