-- ==== Sys2Proof/Laws/PerInstr.lean ====
section
/-! SUPPORT. Per-instruction statements: one lemma per constructor of `Instr`. -/

namespace Sys2Proof.Laws

/-- A term is rebuilt from its operation and its operand bytes, and its operand bytes are as many as its mode has:
no operand of the instruction is dropped between the term and its byte form. -/
def Rebuild.Statement (i : Instr) : Prop :=
  Instr.ofOperands i.value.operation i.operands = i ∧ i.operands.bytes.length = i.value.mode.operandBytes

theorem Rebuild.incZp (zp : Byte) : Rebuild.Statement (.incZp zp) := ⟨rfl, rfl⟩

theorem Rebuild.incZpi (base index : Byte) : Rebuild.Statement (.incZpi base index) := ⟨rfl, rfl⟩

theorem Rebuild.incAbs (low high : Byte) : Rebuild.Statement (.incAbs low high) := ⟨rfl, rfl⟩

theorem Rebuild.incAbsi (low high index : Byte) : Rebuild.Statement (.incAbsi low high index) := ⟨rfl, rfl⟩

theorem Rebuild.decZp (zp : Byte) : Rebuild.Statement (.decZp zp) := ⟨rfl, rfl⟩

theorem Rebuild.decZpi (base index : Byte) : Rebuild.Statement (.decZpi base index) := ⟨rfl, rfl⟩

theorem Rebuild.decAbs (low high : Byte) : Rebuild.Statement (.decAbs low high) := ⟨rfl, rfl⟩

theorem Rebuild.decAbsi (low high index : Byte) : Rebuild.Statement (.decAbsi low high index) := ⟨rfl, rfl⟩

end Sys2Proof.Laws
end

