-- ==== Sys2Proof/Laws/Step.lean ====
section
/-! SUPPORT. What fetching several bytes does, and what a tick does up to its handler. -/

namespace Sys2Proof.Machine

/-! ### Several delivered fetches -/

/-- The state after `n` delivered fetches. -/
def State.fetchedBy : Nat → State → State
  | 0, s => s
  | n + 1, s => State.fetchedBy n s.fetched

variable (s : State) (n : Nat)

@[simp] theorem State.fetched_a : s.fetched.a = s.a := rfl
@[simp] theorem State.fetched_x : s.fetched.x = s.x := rfl
@[simp] theorem State.fetched_y : s.fetched.y = s.y := rfl
@[simp] theorem State.fetched_sp : s.fetched.sp = s.sp := rfl
@[simp] theorem State.fetched_pc : s.fetched.pc = s.pc + 1 := rfl
@[simp] theorem State.fetched_p : s.fetched.p = s.p := rfl
@[simp] theorem State.fetched_mem : s.fetched.mem = s.mem := rfl
@[simp] theorem State.fetched_dt : s.fetched.dt = s.dt := rfl
@[simp] theorem State.fetched_busCanFail : s.fetched.busCanFail = s.busCanFail := rfl
@[simp] theorem State.fetched_answers : s.fetched.answers = s.answers.tail := rfl
@[simp] theorem State.fetched_cycles : s.fetched.cycles = s.cycles := rfl
@[simp] theorem State.fetched_draws : s.fetched.draws = s.draws := rfl
@[simp] theorem State.fetched_trace :
    s.fetched.trace = s.trace ++ [.read s.pc (some (s.mem.read s.pc))] := rfl

@[simp] theorem State.fetchedBy_a : (s.fetchedBy n).a = s.a := by
  induction n generalizing s <;> simp [State.fetchedBy, *]
@[simp] theorem State.fetchedBy_x : (s.fetchedBy n).x = s.x := by
  induction n generalizing s <;> simp [State.fetchedBy, *]
@[simp] theorem State.fetchedBy_y : (s.fetchedBy n).y = s.y := by
  induction n generalizing s <;> simp [State.fetchedBy, *]
@[simp] theorem State.fetchedBy_sp : (s.fetchedBy n).sp = s.sp := by
  induction n generalizing s <;> simp [State.fetchedBy, *]
@[simp] theorem State.fetchedBy_p : (s.fetchedBy n).p = s.p := by
  induction n generalizing s <;> simp [State.fetchedBy, *]
@[simp] theorem State.fetchedBy_mem : (s.fetchedBy n).mem = s.mem := by
  induction n generalizing s <;> simp [State.fetchedBy, *]
@[simp] theorem State.fetchedBy_dt : (s.fetchedBy n).dt = s.dt := by
  induction n generalizing s <;> simp [State.fetchedBy, *]
@[simp] theorem State.fetchedBy_busCanFail : (s.fetchedBy n).busCanFail = s.busCanFail := by
  induction n generalizing s <;> simp [State.fetchedBy, *]
@[simp] theorem State.fetchedBy_cycles : (s.fetchedBy n).cycles = s.cycles := by
  induction n generalizing s <;> simp [State.fetchedBy, *]
@[simp] theorem State.fetchedBy_draws : (s.fetchedBy n).draws = s.draws := by
  induction n generalizing s <;> simp [State.fetchedBy, *]

/-- `PC` has advanced by the number of bytes fetched, modulo 65536. -/
@[simp] theorem State.fetchedBy_pc : (s.fetchedBy n).pc = s.pc + BitVec.ofNat 16 n := by
  induction n generalizing s with
  | zero => simp [State.fetchedBy]
  | succ n ih =>
    rw [State.fetchedBy, ih, State.fetched_pc, BitVec.add_assoc, Nat.add_comm n 1, BitVec.ofNat_add]
    rfl

/-- Each fetch used one answer of the bus. -/
@[simp] theorem State.fetchedBy_answers : (s.fetchedBy n).answers = s.answers.drop n := by
  induction n generalizing s with
  | zero => simp [State.fetchedBy]
  | succ n ih => rw [State.fetchedBy, ih, State.fetched_answers, List.drop_tail]

/-- One more fetch on the right. -/
theorem State.fetchedBy_succ : s.fetchedBy (n + 1) = (s.fetchedBy n).fetched := by
  induction n generalizing s with
  | zero => rfl
  | succ n ih => rw [State.fetchedBy, ih, State.fetchedBy]

/-- The fetches in ascending address order, each with the byte it returned. -/
theorem State.fetchedBy_trace : (s.fetchedBy n).trace = s.trace ++ (List.range n).map fun k =>
    BusEvent.read (s.pc + BitVec.ofNat 16 k) (some (s.mem.read (s.pc + BitVec.ofNat 16 k))) := by
  induction n with
  | zero => simp [State.fetchedBy]
  | succ n ih => simp [State.fetchedBy_succ, ih, List.range_succ]

/-- The bus delivers `m` transactions after it has delivered `n` of `n + m`. -/
theorem State.busDelivers_fetchedBy {m : Nat} (h : s.busDelivers (n + m) = true) :
    (s.fetchedBy n).busDelivers m = true := by
  induction n generalizing s with
  | zero => simpa [State.fetchedBy] using h
  | succ n ih =>
    rw [Nat.add_right_comm] at h
    exact ih _ (State.busDelivers_tail h rfl rfl)

/-- The failing transaction is `n` nearer after `n` delivered ones. -/
theorem State.busFailsAfter_fetchedBy {m : Nat} (h : s.busFailsAfter (n + m) = true) :
    (s.fetchedBy n).busFailsAfter m = true := by
  induction n generalizing s with
  | zero => simpa [State.fetchedBy] using h
  | succ n ih =>
    rw [Nat.add_right_comm] at h
    exact ih _ (State.busFailsAfter_tail h rfl rfl)

/-! ### The operand bytes -/

/-- The operand bytes a mode finds at the program counter, the first at `PC`. -/
def operandsFrom (s : State) : Mode → Operands
  | .zp => .zp (s.mem.read s.pc)
  | .zpi => .zpi (s.mem.read s.pc) (s.mem.read (s.pc + 1))
  | .abs => .abs (s.mem.read s.pc) (s.mem.read (s.pc + 1))
  | .absi => .absi (s.mem.read s.pc) (s.mem.read (s.pc + 1)) (s.mem.read (s.pc + 2))

/-- On a bus that answers, the operand bytes are those at the program counter. -/
theorem fetchOperands_delivered {m : Mode} (h : s.busDelivers m.operandBytes = true) :
    fetchOperands m s = .ok (operandsFrom s m) (s.fetchedBy m.operandBytes) := by
  have step1 : ∀ {t : State} {n : Nat}, t.busDelivers (n + 1) = true →
      t.busFails = false ∧ t.fetched.busDelivers n = true :=
    fun h => ⟨State.busFails_of_busDelivers h, State.busDelivers_tail h rfl rfl⟩
  have two : s.pc + 1#16 + 1#16 = s.pc + 2#16 := by rw [BitVec.add_assoc]; rfl
  cases m with
  | zp => simp [fetchOperands, fetchThen_delivered (step1 h).1, operandsFrom, State.fetchedBy, Mode.operandBytes]
  | zpi =>
    simp [fetchOperands, fetchThen_delivered (step1 h).1, fetchThen_delivered (step1 (step1 h).2).1, operandsFrom,
      State.fetchedBy, Mode.operandBytes]
  | abs =>
    simp [fetchOperands, fetchThen_delivered (step1 h).1, fetchThen_delivered (step1 (step1 h).2).1, operandsFrom,
      State.fetchedBy, Mode.operandBytes]
  | absi =>
    simp [fetchOperands, fetchThen_delivered (step1 h).1, fetchThen_delivered (step1 (step1 h).2).1,
      fetchThen_delivered (step1 (step1 (step1 h).2).2).1, operandsFrom, State.fetchedBy, Mode.operandBytes, two]

/-- A fetch that fails at the operand byte numbered `k` from 0. -/
theorem fetchOperands_failed {m : Mode} {k : Nat} (hk : k < m.operandBytes) (h : s.busFailsAfter k = true) :
    fetchOperands m s = .fault (.busFailure (s.pc + BitVec.ofNat 16 k) .read
      ((s.fetchedBy k).issue (.read (s.pc + BitVec.ofNat 16 k) none)).dropCycles) := by
  have step1 : ∀ {t : State} {n : Nat}, t.busFailsAfter (n + 1) = true →
      t.busFails = false ∧ t.fetched.busFailsAfter n = true :=
    fun h => ⟨State.busFails_of_busFailsAfter h, State.busFailsAfter_tail h rfl rfl⟩
  have two : s.pc + 1#16 + 1#16 = s.pc + 2#16 := by rw [BitVec.add_assoc]; rfl
  match k, h with
  | 0, h =>
    rw [State.busFailsAfter_zero] at h
    cases m <;> simp [fetchOperands, fetchThen_failed h, State.fetchedBy]
  | 1, h =>
    have h2 := (step1 h).2
    rw [State.busFailsAfter_zero] at h2
    cases m <;> simp [Mode.operandBytes] at hk <;>
      simp [fetchOperands, fetchThen_delivered (step1 h).1, fetchThen_failed h2, State.fetchedBy]
  | 2, h =>
    have h3 := (step1 (step1 h).2).2
    rw [State.busFailsAfter_zero] at h3
    cases m <;> simp [Mode.operandBytes] at hk
    simp [fetchOperands, fetchThen_delivered (step1 h).1, fetchThen_delivered (step1 (step1 h).2).1,
      fetchThen_failed h3, State.fetchedBy, two]
  | k + 3, _ => cases m <;> simp [Mode.operandBytes] at hk

/-! ### The tick -/

/-- A tick whose opcode fetch fails. -/
theorem step_fetchFailed (h : s.busFails = true) :
    step s = .fault (.busFailure s.pc .read (s.beginTick.issue (.read s.pc none)).dropCycles) := by
  have h' : s.beginTick.busFails = true := h
  simp [step, fetchByte_failed h']

/-- A tick that meets an unregistered opcode. -/
theorem step_illegal (h : s.busFails = false) (hl : s.dt.lookup (s.mem.read s.pc) = none) :
    step s = .fault (.illegalOpcode (s.mem.read s.pc) s.pc s.beginTick.fetched.dropCycles) := by
  have h' : s.beginTick.busFails = false := h
  simp [step, fetchByte_delivered h', hl, takeException]

/-- A tick that meets a registered opcode fetches its operand bytes and runs its handler. -/
theorem step_dispatched {v : InstrValue} (h : s.busFails = false) (hl : s.dt.lookup (s.mem.read s.pc) = some v) :
    step s = match fetchOperands v.mode s.beginTick.fetched with
      | .fault r => .fault r
      | .ok o t => exec (Instr.ofOperands v.operation o) t := by
  have h' : s.beginTick.busFails = false := h
  cases ho : fetchOperands v.mode s.beginTick.fetched <;>
    simp only [step, fetchByte_delivered h', State.fetched_dt, State.beginTick_dt, State.beginTick_mem,
      State.beginTick_pc, hl, ho]

/-- A tick whose fetches are all delivered is the handler body on the fetched state. -/
theorem step_handler {v : InstrValue} (hl : s.dt.lookup (s.mem.read s.pc) = some v)
    (h : s.busDelivers (1 + v.mode.operandBytes) = true) :
    step s = handler v.operation v.mode (resolve (operandsFrom s.beginTick.fetched v.mode))
      (s.beginTick.fetchedBy (1 + v.mode.operandBytes)) := by
  have h' : s.beginTick.busDelivers (1 + v.mode.operandBytes) = true := h
  rw [Nat.add_comm] at h h'
  have hops := fetchOperands_delivered s.beginTick.fetched
    (State.busDelivers_tail (t := s.beginTick.fetched) h' rfl rfl)
  rw [step_dispatched s (State.busFails_of_busDelivers h) hl, hops]
  obtain ⟨operation, m⟩ := v
  simp only [exec_eq_handler, ofOperands_operands, ofOperands_operation, Nat.add_comm 1, State.fetchedBy]
  cases operation <;> cases m <;> rfl

/-- The effective address the tick at `s` computes for an instruction of mode `m`. -/
def tickAddress (s : State) (m : Mode) : Word := resolve (operandsFrom s.beginTick.fetched m)

/-- The state in which the handler of the tick at `s` starts: opcode and operand bytes fetched. -/
def tickFetched (s : State) (m : Mode) : State := s.beginTick.fetchedBy (1 + m.operandBytes)

/-- Everything a tick can do, each case with the bus's answers it needs. -/
theorem step_cases :
    (s.busFailsAfter 0 = true ∧
      step s = .fault (.busFailure s.pc .read (s.beginTick.issue (.read s.pc none)).dropCycles)) ∨
    (s.busDelivers 1 = true ∧ s.dt.lookup (s.mem.read s.pc) = none ∧
      step s = .fault (.illegalOpcode (s.mem.read s.pc) s.pc s.beginTick.fetched.dropCycles)) ∨
    ∃ v, s.dt.lookup (s.mem.read s.pc) = some v ∧
      ((∃ k, 1 ≤ k ∧ k ≤ v.mode.operandBytes ∧ s.busFailsAfter k = true ∧
          step s = .fault (.busFailure (s.pc + BitVec.ofNat 16 k) .read
            ((s.beginTick.fetchedBy k).issue (.read (s.pc + BitVec.ofNat 16 k) none)).dropCycles)) ∨
        (s.busFailsAfter (1 + v.mode.operandBytes) = true ∧
          step s = .fault (.busFailure (tickAddress s v.mode) .read
            ((tickFetched s v.mode).issue (.read (tickAddress s v.mode) none)).dropCycles)) ∨
        (s.busFailsAfter (2 + v.mode.operandBytes) = true ∧
          step s = .fault (.busFailure (tickAddress s v.mode) .write
            (((((tickFetched s v.mode).issue (.read (tickAddress s v.mode)
              (some (s.mem.read (tickAddress s v.mode))))).issue (.write (tickAddress s v.mode)
              (alu v.operation (s.mem.read (tickAddress s v.mode))) false)).scramble
              (tickAddress s v.mode)).dropCycles))) ∨
        (s.busDelivers (3 + v.mode.operandBytes) = true ∧
          step s = .next (handled v.operation v.mode (tickAddress s v.mode) (tickFetched s v.mode)))) := by
  rcases s.busDelivers_or_busFailsAfter 1 with h1 | ⟨k, hk, h⟩
  swap
  · obtain rfl : k = 0 := by omega
    exact .inl ⟨h, step_fetchFailed s (by simpa using h)⟩
  have hf := State.busFails_of_busDelivers h1
  cases hl : s.dt.lookup (s.mem.read s.pc) with
  | none => exact .inr (.inl ⟨h1, rfl, step_illegal s hf hl⟩)
  | some v =>
    refine .inr (.inr ⟨v, rfl, ?_⟩)
    rcases s.busDelivers_or_busFailsAfter (1 + v.mode.operandBytes) with hd | ⟨k, hk, h⟩
    · have hs := step_handler s hl hd
      have hmem : (s.beginTick.fetchedBy (1 + v.mode.operandBytes)).mem = s.mem := by simp
      rcases s.busDelivers_or_busFailsAfter (3 + v.mode.operandBytes) with hd3 | ⟨j, hj, h⟩
      · refine .inr (.inr (.inr ⟨hd3, hs.trans (handler_delivered ?_ _ _ _)⟩))
        exact State.busDelivers_fetchedBy s.beginTick _ (m := 2) (by rw [Nat.add_right_comm]; exact hd3)
      · have hge : 1 + v.mode.operandBytes ≤ j := by
          by_contra hlt
          exact State.not_busFailsAfter_of_busDelivers (by omega) hd h
        obtain ⟨m, rfl⟩ := Nat.exists_eq_add_of_le hge
        have hm := State.busFailsAfter_fetchedBy s.beginTick _ (m := m) h
        have hcases := handler_cases v.operation v.mode (tickAddress s v.mode) (tickFetched s v.mode)
        match m, hj with
        | 0, _ =>
          refine .inr (.inl ⟨h, hs.trans ?_⟩)
          rcases hcases with ⟨hd, _⟩ | ⟨_, h'⟩ | ⟨h1, _⟩
          · exact absurd hm (State.not_busFailsAfter_of_busDelivers (by omega) hd)
          · exact h'
          · exact absurd hm (State.not_busFailsAfter_of_busFailsAfter (by omega) h1)
        | 1, _ =>
          have hw : s.busFailsAfter (2 + v.mode.operandBytes) = true := by rwa [Nat.add_right_comm] at h
          refine .inr (.inr (.inl ⟨hw, hs.trans ?_⟩))
          rcases hcases with ⟨hd, _⟩ | ⟨h0, _⟩ | ⟨_, h'⟩
          · exact absurd hm (State.not_busFailsAfter_of_busDelivers (by omega) hd)
          · exact absurd h0 (State.not_busFailsAfter_of_busFailsAfter (by omega) hm)
          · simp only [tickFetched, hmem] at h' ⊢
            exact h'
        | m + 2, hj => omega
    · have hpos : 1 ≤ k := by
        by_contra hlt
        exact State.not_busFailsAfter_of_busDelivers (by omega) h1 h
      obtain ⟨j, rfl⟩ := Nat.exists_eq_add_of_le' hpos
      refine .inl ⟨j + 1, hpos, by omega, h, ?_⟩
      have hj := State.busFailsAfter_tail (t := s.beginTick.fetched) h rfl rfl
      have hpc : s.pc + 1 + BitVec.ofNat 16 j = s.pc + BitVec.ofNat 16 (j + 1) := by
        rw [BitVec.add_assoc, Nat.add_comm j 1, BitVec.ofNat_add]
        rfl
      rw [step_dispatched s hf hl, fetchOperands_failed _ (by omega) hj]
      simp only [State.fetched_pc, State.beginTick_pc, hpc, State.fetchedBy]

end Sys2Proof.Machine
end

