-- ==== Sys2Proof/Laws/Safety.lean ====
section
/-! SUPPORT. Runs by their first tick. -/

namespace Sys2Proof.Safety

open Sys2Proof.Machine

/-- No tick: the run is where it started. -/
theorem completes_zero (s t : State) : Completes 0 s t ↔ t = s :=
  ⟨fun h => (Host.Outcome.next.inj h).symm, fun h => h ▸ rfl⟩

/-- A run of `n + 1` completed ticks is a completed tick and a run of `n`. -/
theorem completes_succ (n : Nat) (s t : State) :
    Completes (n + 1) s t ↔ ∃ u, step s = .next u ∧ Completes n u t := by
  simp only [Completes, Host.Core.run]
  cases hs : step s with
  | next u =>
    rw [show Sys2Proof.core.step s = .next u from hs]
    refine ⟨fun h => ⟨u, rfl, h⟩, ?_⟩
    rintro ⟨u', hu, h⟩
    cases hu
    exact h
  | fault r =>
    rw [show Sys2Proof.core.step s = .fault r from hs]
    refine ⟨fun h => (nomatch h), ?_⟩
    rintro ⟨u, hu, _⟩
    cases hu
  | refused r =>
    rw [show Sys2Proof.core.step s = .refused r from hs]
    refine ⟨fun h => (nomatch h), ?_⟩
    rintro ⟨u, hu, _⟩
    cases hu

end Sys2Proof.Safety
end

