-- ==== Sys2Proof/Tests/Slice0.lean ====
section
/-! SUPPORT. Tests. Expected values are the worked examples and vectors of spec/95_test_vectors.md (S1 to S15, V1 to
V49; named in each test's comment) or bytes written out from 30_encoding; then, for each statement that has hypotheses,
a concrete state and operands that meet them (`witness_<statement>`). -/

namespace Sys2Proof.Tests

open Sys2Proof.Machine Sys2Proof.Safety Sys2Proof.Claims

/-! ### Helpers -/

/-- Memory with the given bytes. -/
def poke (cells : List (Word × Byte)) : Memory := cells.foldl (fun m c => Memory.write m c.1 c.2) []

/-- All seven flags at one value. -/
def allFlags (b : Bool) : Flags := ⟨b, b, b, b, b, b, b⟩

/-- The conventions of 95_test_vectors: sentinels in A, X, Y and SP, the default table; the bus gives `answers`. -/
def machine (pc : Word) (cells : List (Word × Byte)) (flags : Flags := allFlags false)
    (answers : List BusAnswer := []) : State :=
  { State.construct ⟨0xAA, 0x11, 0x22, 0x33, pc, flags⟩ defaultTable true (poke cells) with answers := answers }

/-- The sentinels are where `machine` put them. -/
def sentinels (s : State) : Bool := decide (s.a = 0xAA ∧ s.x = 0x11 ∧ s.y = 0x22 ∧ s.sp = 0x33)

/-- The tick completes and its state passes `check`. -/
def completes (o : Outcome) (check : State → Bool) : Bool :=
  match o with
  | .next s => check s
  | .fault _ => false
  | .refused _ => false

/-- The tick stops with this condition and its state passes `check`. -/
def stops (o : Outcome) (c : Condition) (check : State → Bool) : Bool :=
  match o with
  | .next _ => false
  | .fault r => decide (r.condition = c) && check r.after
  | .refused _ => false

/-- What a row of the vector tables gives: `PC`, N, Z, the cycle count, one byte of memory, and the sentinels. -/
def row (pc : Word) (n z : Bool) (cycles : Byte) (addr : Word) (v : Byte) (s : State) : Bool :=
  decide (s.pc = pc ∧ s.p.n = n ∧ s.p.z = z ∧ s.cycles = cycles ∧ s.mem.read addr = v) && sentinels s

/-! ### Decoding: words written out from the encodings of 30_encoding and opcode_table -/

theorem test_decode_incZp : decode defaultTable [0b11100110, 0x10, 0x77] = .ok (.incZp 0x10, [0x77]) := by decide

theorem test_decode_incZpi : decode defaultTable [0b11110110, 0x55, 0xB0] = .ok (.incZpi 0x55 0xB0, []) := by decide

theorem test_decode_incAbs : decode defaultTable [0b11101110, 0x34, 0x12] = .ok (.incAbs 0x34 0x12, []) := by decide

theorem test_decode_incAbsi :
    decode defaultTable [0b11111110, 0x34, 0x12, 0xFF] = .ok (.incAbsi 0x34 0x12 0xFF, []) := by decide

theorem test_decode_decZp : decode defaultTable [0b11000110, 0x55] = .ok (.decZp 0x55, []) := by decide

theorem test_decode_decZpi : decode defaultTable [0b11010110, 0x55, 0xB0] = .ok (.decZpi 0x55 0xB0, []) := by decide

theorem test_decode_decAbs : decode defaultTable [0b11001110, 0x00, 0x02] = .ok (.decAbs 0x00 0x02, []) := by decide

theorem test_decode_decAbsi :
    decode defaultTable [0b11011110, 0x01, 0xFF, 0xFF] = .ok (.decAbsi 0x01 0xFF 0xFF, []) := by decide

/-- V35, V37: neighbours of a registered byte and bytes of other 6502 instructions are illegal. -/
theorem test_decode_rejects_by_name :
    decode defaultTable [0xC5, 0x55] = .error (.illegalOpcode 0xC5) ∧
    decode defaultTable [0xEA] = .error (.illegalOpcode 0xEA) ∧
    decode defaultTable [0xFE, 0x34, 0x12] = .error .truncated := by decide

/-- The word of a table row, bit 0 the least significant bit of the first byte; the missing bits are zeros. -/
theorem test_table_word :
    decodeTableWord 16 0x10E6 = some (.incZp 0x10) ∧ decodeTableWord 32 0xFF1234DE = some (.decAbsi 0x34 0x12 0xFF) ∧
    decodeTableWord 8 0xFE = some (.incAbsi 0 0 0) ∧ decodeTableWord 16 0xFFFF = none := by decide

/-! ### Well-formedness: an ill-formed term for each check -/

theorem test_wf_refuses_second_registration : DispatchTable.wf [(0xC6, ⟨.dec, .zp⟩), (0xC6, ⟨.inc, .zp⟩)] = false := by
  decide

theorem test_wf_refuses_falling_order : DispatchTable.wf [(0xE6, ⟨.inc, .zp⟩), (0xC6, ⟨.dec, .zp⟩)] = false := by decide

theorem test_wf_accepts_default_table : DispatchTable.wf defaultTable = true := by decide

theorem test_instr_wf_refuses_unspelled : Instr.wf [(0xC6, ⟨.dec, .zp⟩)] (.incZp 0x10) = false := by decide

theorem test_instr_wf_accepts : Instr.wf defaultTable (.decAbsi 0x34 0x12 0xFF) = true := by decide

theorem test_memory_wf_refuses_a_listed_default : Memory.wf [(3, 0)] = false := by decide

theorem test_memory_wf_refuses_falling_order : Memory.wf [(4, 1), (3, 1)] = false := by decide

/-! ### The increment family -/

/-- V1 -/
theorem test_incZp_sets_negative :
    completes (step (machine 0x8000 [(0x8000, 0xE6), (0x8001, 0x10), (0x0010, 0x7F)])) (fun s => row 0x8002 true
      false 5 0x0010 0x80 s && decide (s.trace = [.read 0x8000 (some 0xE6), .read 0x8001 (some 0x10), .read
      0x0010 (some 0x7F), .write 0x0010 0x80 true])) = true := by
  decide

/-- V3 -/
theorem test_incZp_wraps_and_keeps_other_flags :
    completes (step (machine 0x8000 [(0x8000, 0xE6), (0x8001, 0x10), (0x0010, 0xFF)] ({ allFlags true with z :=
      false }))) (fun s => row 0x8002 false true 5 0x0010 0x00 s && decide (s.p = ⟨false, true, true, true,
      true, true, true⟩)) = true := by
  decide

/-- V6 -/
theorem test_incZpi_wraps_in_page_zero :
    completes (step (machine 0x8000 [(0x8000, 0xF6), (0x8001, 0x55), (0x8002, 0xB0), (0x0105, 0x77)])) (fun s =>
      row 0x8003 false false 6 0x0005 0x01 s && decide (s.mem.read 0x0105 = 0x77)) = true := by
  decide

/-- V16 -/
theorem test_incZpi_across_the_top_of_memory :
    completes (step (machine 0xFFFF [(0xFFFF, 0xF6), (0x0000, 0x20), (0x0001, 0x30), (0x0050, 0x01)])) (fun s =>
      row 0x0002 false false 6 0x0050 0x02 s && decide (s.trace = [.read 0xFFFF (some 0xF6), .read 0x0000 (some
      0x20), .read 0x0001 (some 0x30), .read 0x0050 (some 0x01), .write 0x0050 0x02 true])) = true := by
  decide

/-- V9 -/
theorem test_incAbs_low_byte_first :
    completes (step (machine 0x8000 [(0x8000, 0xEE), (0x8001, 0x34), (0x8002, 0x12), (0x1234, 0xFE)])) (row
      0x8003 true false 6 0x1234 0xFF) = true := by
  decide

/-- V17 -/
theorem test_incAbs_of_its_own_operand_byte :
    completes (step (machine 0x8000 [(0x8000, 0xEE), (0x8001, 0x01), (0x8002, 0x80)])) (fun s => row 0x8003
      false false 6 0x8001 0x02 s && decide (s.trace = [.read 0x8000 (some 0xEE), .read 0x8001 (some 0x01),
      .read 0x8002 (some 0x80), .read 0x8001 (some 0x01), .write 0x8001 0x02 true])) = true := by
  decide

/-- S15, V12 -/
theorem test_incAbsi_crosses_a_page :
    completes (step (machine 0x8000 [(0x8000, 0xFE), (0x8001, 0x34), (0x8002, 0x12), (0x8003, 0xFF), (0x1333,
      0x55)])) (fun s => row 0x8004 false false 7 0x1333 0x56 s && decide (s.trace = [.read 0x8000 (some 0xFE),
      .read 0x8001 (some 0x34), .read 0x8002 (some 0x12), .read 0x8003 (some 0xFF), .read 0x1333 (some 0x55),
      .write 0x1333 0x56 true])) = true := by
  decide

/-- V13 -/
theorem test_incAbsi_wraps_at_16_bits :
    completes (step (machine 0x8000 [(0x8000, 0xFE), (0x8001, 0xFF), (0x8002, 0xFF), (0x8003, 0x02), (0x0001,
      0x7F)])) (row 0x8004 true false 7 0x0001 0x80) = true := by
  decide

/-! ### The decrement family -/

/-- S12 -/
theorem test_decZp_source_scenario_1 :
    completes (step (machine 0x8000 [(0x8000, 0xC6), (0x8001, 0x55), (0x0055, 0x55)])) (row 0x8002 false false 5
      0x0055 0x54) = true := by
  decide

/-- V33 -/
theorem test_decZp_of_its_own_operand_at_the_top :
    completes (step (machine 0xFFFF [(0xFFFF, 0xC6)])) (fun s => row 0x0001 true false 5 0x0000 0xFF s && decide
      (s.trace = [.read 0xFFFF (some 0xC6), .read 0x0000 (some 0x00), .read 0x0000 (some 0x00), .write 0x0000
      0xFF true])) = true := by
  decide

/-- V25 -/
theorem test_decZpi_to_zero :
    completes (step (machine 0x8000 [(0x8000, 0xD6), (0x8001, 0x55), (0x8002, 0xB0), (0x0005, 0x01)])) (row
      0x8003 false true 6 0x0005 0x00) = true := by
  decide

/-- V27 -/
theorem test_decZpi_wraps_in_page_zero :
    completes (step (machine 0x8000 [(0x8000, 0xD6), (0x8001, 0x80), (0x8002, 0x80), (0x0000, 0x02)])) (row
      0x8003 false false 6 0x0000 0x01) = true := by
  decide

/-- V28 -/
theorem test_decAbs_borrows_to_ff :
    completes (step (machine 0x8000 [(0x8000, 0xCE), (0x8001, 0x00), (0x8002, 0x02)])) (row 0x8003 true false 6
      0x0200 0xFF) = true := by
  decide

/-- V29 -/
theorem test_decAbs_to_zero :
    completes (step (machine 0x8000 [(0x8000, 0xCE), (0x8001, 0x34), (0x8002, 0x12), (0x1234, 0x01)])) (row
      0x8003 false true 6 0x1234 0x00) = true := by
  decide

/-- V30 -/
theorem test_decAbsi_clears_negative :
    completes (step (machine 0x8000 [(0x8000, 0xDE), (0x8001, 0x34), (0x8002, 0x12), (0x8003, 0xFF), (0x1333,
      0x80)])) (row 0x8004 false false 7 0x1333 0x7F) = true := by
  decide

/-- V31 -/
theorem test_decAbsi_wraps_at_16_bits :
    completes (step (machine 0x8000 [(0x8000, 0xDE), (0x8001, 0x01), (0x8002, 0xFF), (0x8003, 0xFF)])) (row
      0x8004 true false 7 0x0000 0xFF) = true := by
  decide

/-! ### Errors -/

/-- V35 -/
theorem test_illegal_nop_is_no_nop :
    stops (step (machine 0x8000 [(0x8000, 0xEA)])) (.illegalOpcode 0xEA 0x8000) (fun s => decide (s.pc = 0x8001
      ∧ s.trace = [.read 0x8000 (some 0xEA)] ∧ s.cycles = 0) && sentinels s) = true := by
  decide

/-- V39 -/
theorem test_illegal_at_the_top_of_memory :
    stops (step (machine 0xFFFF [(0xFFFF, 0xFF)])) (.illegalOpcode 0xFF 0xFFFF) (fun s => decide (s.pc = 0x0000)
      && sentinels s) = true := by
  decide

/-- V40 -/
theorem test_bus_failure_at_transaction_1 :
    stops (step (machine 0x8000 [(0x8000, 0xFE), (0x8001, 0x34), (0x8002, 0x12), (0x8003, 0xFF), (0x1333, 0x55)]
      ({ allFlags false with n := true, z := true }) [.failed])) (.busFailure 0x8000 .read) (fun s => decide
      (s.pc = 0x8000 ∧ s.p.n = true ∧ s.p.z = true) && sentinels s) = true := by
  decide

/-- V43 -/
theorem test_bus_failure_at_transaction_4 :
    stops (step (machine 0x8000 [(0x8000, 0xFE), (0x8001, 0x34), (0x8002, 0x12), (0x8003, 0xFF), (0x1333, 0x55)]
      ({ allFlags false with n := true, z := true }) [.done, .done, .done, .failed])) (.busFailure 0x8003 .read)
      (fun s => decide (s.pc = 0x8003 ∧ s.p.n = true ∧ s.p.z = true) && sentinels s) = true := by
  decide

/-- V44 -/
theorem test_bus_failure_at_transaction_5 :
    stops (step (machine 0x8000 [(0x8000, 0xFE), (0x8001, 0x34), (0x8002, 0x12), (0x8003, 0xFF), (0x1333, 0x55)]
      ({ allFlags false with n := true, z := true }) [.done, .done, .done, .done, .failed])) (.busFailure 0x1333
      .read) (fun s => decide (s.pc = 0x8004 ∧ s.p.n = true ∧ s.p.z = true) && sentinels s) = true := by
  decide

/-- V45 -/
theorem test_bus_failure_at_transaction_6 :
    stops (step (machine 0x8000 [(0x8000, 0xFE), (0x8001, 0x34), (0x8002, 0x12), (0x8003, 0xFF), (0x1333, 0x55)]
      ({ allFlags false with n := true, z := true }) [.done, .done, .done, .done, .done, .failed])) (.busFailure
      0x1333 .write) (fun s => decide (s.pc = 0x8004 ∧ s.p.n = true ∧ s.p.z = true) && sentinels s) = true := by
  decide

/-! ### Registration -/

/-- V46: the second registration of a byte is rejected and reported. -/
theorem test_second_registration_is_rejected :
    buildTable [] [(0xC6, .value ⟨.dec, .zp⟩), (0xC6, .value ⟨.inc, .zp⟩)] =
      some ([(0xC6, ⟨.dec, .zp⟩)], [0xC6]) := by decide

/-- V48: one instruction value under two bytes. -/
theorem test_one_value_under_two_bytes :
    buildTable [] [(0xC7, .value ⟨.dec, .zp⟩), (0xC6, .value ⟨.dec, .zp⟩)] =
      some ([(0xC6, ⟨.dec, .zp⟩), (0xC7, ⟨.dec, .zp⟩)], []) := by decide

/-- V49: a handler outside the eight. -/
theorem test_outside_handler_refuses_the_table :
    buildTable [] [(0xC6, .value ⟨.dec, .zp⟩), (0xA1, .outside)] = none := by decide

/-- The default table is what registering the rows of R57 in their order there builds. -/
theorem test_default_table_is_registered :
    buildTable [] [(0xE6, .value ⟨.inc, .zp⟩), (0xF6, .value ⟨.inc, .zpi⟩), (0xEE, .value ⟨.inc, .abs⟩),
      (0xFE, .value ⟨.inc, .absi⟩), (0xC6, .value ⟨.dec, .zp⟩), (0xD6, .value ⟨.dec, .zpi⟩),
      (0xCE, .value ⟨.dec, .abs⟩), (0xDE, .value ⟨.dec, .absi⟩)] = some (defaultTable, []) := by decide

/-! ### Reset -/

/-- From reset with nothing placed the first tick meets the byte 0x00 at 0x0000, which is illegal (log 13). -/
theorem test_first_tick_from_reset : stops (step State.reset) (.illegalOpcode 0x00 0x0000) (fun _ => true) = true := by
  decide

/-- A placed table word runs as the first instruction after reset. -/
theorem test_placed_word_runs :
    completes (step (State.reset.withFetchWord 32 0xFF1234FE)) (fun s => decide (s.mem.read 0x1333 = 0x01)) = true := by
  decide

/-! ### Witnesses: states and operands that meet the hypotheses of each statement -/

/-- INC ABS of 0x0200, and behind it DEC ZP: two ticks complete. -/
def twoTicks : State := machine 0x8000 [(0x8000, 0xEE), (0x8001, 0x00), (0x8002, 0x02), (0x8003, 0xC6), (0x8004, 0x55)]

/-- One instruction `op` at 0x8000 whose transactions the bus answers with `answers`. -/
def oneTick (op : Byte) (answers : List BusAnswer) : State :=
  machine 0x8000 [(0x8000, op), (0x8001, 0x34), (0x8002, 0x12), (0x8003, 0xFF)] (allFlags false) answers

theorem witness_DecodeUndoesEncodeOnAnyTable :
    DispatchTable.wf [(0x07, ⟨.dec, .zp⟩)] = true ∧ encodeIn [(0x07, ⟨.dec, .zp⟩)] (.decZp 0xFF) = some [0x07, 0xFF] := by
  decide

theorem witness_EncodeUndoesDecode : decode defaultTable [0xC6, 0xFF, 0x00] = .ok (.decZp 0xFF, [0x00]) := by decide

theorem witness_OpcodeByteDecidesAlone :
    defaultTable.lookup 0x00 = none ∧ defaultTable.lookup 0xFE = some ⟨.inc, .absi⟩ ∧
    ([0x01, 0x02] : List Byte).length < Mode.absi.operandBytes ∧
    Mode.absi.operandBytes ≤ ([0x01, 0x02, 0x03] : List Byte).length := by decide

theorem witness_UnregisteredOpcodeEndsTheTick :
    (oneTick 0xEA []).dt.lookup (codeByte (oneTick 0xEA []) 0) = none ∧ (oneTick 0xEA []).busDelivers 1 = true := by
  decide

theorem witness_StepRunsDecodedInstruction :
    decode twoTicks.dt [codeByte twoTicks 0, codeByte twoTicks 1, codeByte twoTicks 2, codeByte twoTicks 3] =
      .ok (.incAbs 0x00 0x02, [0xC6]) ∧ twoTicks.busDelivers (Instr.incAbs 0x00 0x02).length = true := by decide

theorem witness_PlacedWordRunsNext :
    State.reset.dt = defaultTable ∧ decodeTableWord 24 0x1234EE = some (.incAbs 0x34 0x12) := by decide

theorem witness_ResolverReadsOperandBytes :
    (oneTick 0xFE [.done, .done, .done]).busDelivers Mode.absi.operandBytes = true ∧
    (oneTick 0xC6 [.done, .failed]).busDelivers Mode.zp.operandBytes = true := by decide

theorem witness_ZeroPageModesWriteOnlyPageZero :
    (oneTick 0xE6 []).dt.lookup (codeByte (oneTick 0xE6 []) 0) = some ⟨.inc, .zp⟩ ∧
    (oneTick 0xD6 []).dt.lookup (codeByte (oneTick 0xD6 []) 0) = some ⟨.dec, .zpi⟩ ∧
    (∃ t, step (oneTick 0xE6 []) = .next t) ∧ (∃ t, step (oneTick 0xD6 []) = .next t) ∧
    256 ≤ (0x0100 : Word).toNat := ⟨by decide, by decide, ⟨_, rfl⟩, ⟨_, rfl⟩, by decide⟩

theorem witness_CompletedTickNeverNegativeAndZero : ∃ t, step twoTicks = .next t := ⟨_, rfl⟩

theorem witness_FlagPolicyOfTheByteWritten : ∃ t, step (oneTick 0xDE []) = .next t := ⟨_, rfl⟩

theorem witness_IncFamilyTick :
    (oneTick 0xE6 []).dt.lookup (codeByte (oneTick 0xE6 []) 0) = some ⟨.inc, .zp⟩ ∧
    (oneTick 0xFE []).dt.lookup (codeByte (oneTick 0xFE []) 0) = some ⟨.inc, .absi⟩ := by decide

theorem witness_DecFamilyTick :
    (oneTick 0xC6 []).dt.lookup (codeByte (oneTick 0xC6 []) 0) = some ⟨.dec, .zp⟩ ∧
    (oneTick 0xDE []).dt.lookup (codeByte (oneTick 0xDE []) 0) = some ⟨.dec, .absi⟩ := by decide

theorem witness_TickOfIncZp :
    (oneTick 0xE6 []).dt.lookup (codeByte (oneTick 0xE6 []) 0) = some ⟨.inc, .zp⟩ ∧
    (oneTick 0xE6 []).busDelivers 4 = true ∧ (oneTick 0xE6 [.done, .done, .done, .failed]).busDelivers 4 = false := by
  decide

theorem witness_TickOfIncZpi :
    (oneTick 0xF6 []).dt.lookup (codeByte (oneTick 0xF6 []) 0) = some ⟨.inc, .zpi⟩ ∧
    (oneTick 0xF6 []).busDelivers 5 = true ∧ (oneTick 0xF6 [.done, .done, .done, .done, .failed]).busDelivers 5 = false := by
  decide

theorem witness_TickOfIncAbs :
    (oneTick 0xEE []).dt.lookup (codeByte (oneTick 0xEE []) 0) = some ⟨.inc, .abs⟩ ∧
    (oneTick 0xEE []).busDelivers 5 = true ∧ (oneTick 0xEE [.done, .done, .done, .done, .failed]).busDelivers 5 = false := by
  decide

theorem witness_TickOfIncAbsi :
    (oneTick 0xFE []).dt.lookup (codeByte (oneTick 0xFE []) 0) = some ⟨.inc, .absi⟩ ∧
    (oneTick 0xFE []).busDelivers 6 = true ∧ (oneTick 0xFE [.done, .done, .done, .done, .done, .failed]).busDelivers 6 = false := by
  decide

theorem witness_TickOfDecZp :
    (oneTick 0xC6 []).dt.lookup (codeByte (oneTick 0xC6 []) 0) = some ⟨.dec, .zp⟩ ∧
    (oneTick 0xC6 []).busDelivers 4 = true ∧ (oneTick 0xC6 [.done, .done, .done, .failed]).busDelivers 4 = false := by
  decide

theorem witness_TickOfDecZpi :
    (oneTick 0xD6 []).dt.lookup (codeByte (oneTick 0xD6 []) 0) = some ⟨.dec, .zpi⟩ ∧
    (oneTick 0xD6 []).busDelivers 5 = true ∧ (oneTick 0xD6 [.done, .done, .done, .done, .failed]).busDelivers 5 = false := by
  decide

theorem witness_TickOfDecAbs :
    (oneTick 0xCE []).dt.lookup (codeByte (oneTick 0xCE []) 0) = some ⟨.dec, .abs⟩ ∧
    (oneTick 0xCE []).busDelivers 5 = true ∧ (oneTick 0xCE [.done, .done, .done, .done, .failed]).busDelivers 5 = false := by
  decide

theorem witness_TickOfDecAbsi :
    (oneTick 0xDE []).dt.lookup (codeByte (oneTick 0xDE []) 0) = some ⟨.dec, .absi⟩ ∧
    (oneTick 0xDE []).busDelivers 6 = true ∧ (oneTick 0xDE [.done, .done, .done, .done, .done, .failed]).busDelivers 6 = false := by
  decide

theorem witness_IncMeaningsComplete : twoTicks.busDelivers 2 = true := by decide

theorem witness_DecMeaningsComplete : (oneTick 0xC6 [.done, .done, .failed]).busDelivers 2 = true := by decide

theorem witness_MeaningFrame :
    (∃ t, exec (.incZp 0x10) twoTicks = .next t) ∧ (∃ t, exec (.incZpi 0xFF 0xFF) twoTicks = .next t) ∧
    (∃ t, exec (.incAbs 0xFF 0xFF) twoTicks = .next t) ∧ (∃ t, exec (.incAbsi 0xFF 0xFF 0x02) twoTicks = .next t) ∧
    (∃ t, exec (.decZp 0x10) twoTicks = .next t) ∧ (∃ t, exec (.decZpi 0xFF 0xFF) twoTicks = .next t) ∧
    (∃ t, exec (.decAbs 0xFF 0xFF) twoTicks = .next t) ∧ (∃ t, exec (.decAbsi 0xFF 0xFF 0x02) twoTicks = .next t) :=
  ⟨⟨_, rfl⟩, ⟨_, rfl⟩, ⟨_, rfl⟩, ⟨_, rfl⟩, ⟨_, rfl⟩, ⟨_, rfl⟩, ⟨_, rfl⟩, ⟨_, rfl⟩⟩

theorem witness_MeaningsStopOnlyOnBusFailure :
    ((oneTick 0xC6 [.failed]).busDelivers 2 = false ∧ (oneTick 0xC6 [.done, .failed]).busDelivers 2 = false) ∧
    (∃ r, exec (.decZp 0xFF) (oneTick 0xC6 [.failed]) = .fault r) ∧
    (∃ r, exec (.incAbs 0xFF 0xFF) (oneTick 0xEE [.done, .failed]) = .fault r) :=
  ⟨by decide, ⟨_, rfl⟩, ⟨_, rfl⟩⟩

theorem witness_IncAndDecUndoEachOther :
    Memory.wf twoTicks.mem = true ∧
    (∃ t u, exec (Instr.ofOperands .inc (.abs 0x00 0x80)) twoTicks = .next t ∧
      exec (Instr.ofOperands .dec (.abs 0x00 0x80)) t = .next u) ∧
    (∃ t u, exec (Instr.ofOperands .dec (.zp 0x10)) twoTicks = .next t ∧
      exec (Instr.ofOperands .inc (.zp 0x10)) t = .next u) :=
  ⟨by decide, ⟨_, _, rfl, rfl⟩, ⟨_, _, rfl, rfl⟩⟩

theorem witness_SequentialAdvanceOfPc : ∃ t, step (oneTick 0xFE []) = .next t := ⟨_, rfl⟩

theorem witness_CycleCountByMode :
    (∃ t, step (oneTick 0xC6 []) = .next t) ∧ (∃ t, step (oneTick 0xD6 []) = .next t) ∧
    (∃ t, step (oneTick 0xCE []) = .next t) ∧ (∃ t, step (oneTick 0xDE []) = .next t) :=
  ⟨⟨_, rfl⟩, ⟨_, rfl⟩, ⟨_, rfl⟩, ⟨_, rfl⟩⟩

theorem witness_TransactionsOfATick :
    (∃ t, step twoTicks = .next t) ∧ ∃ after, step (oneTick 0xEA []) = .fault (.illegalOpcode 0xEA 0x8000 after) :=
  ⟨⟨_, rfl⟩, ⟨_, rfl⟩⟩

/-- INC ABS of the byte behind it, 0xC5, which becomes DEC ZP (program P3). -/
def patches : State := machine 0x8000 [(0x8000, 0xEE), (0x8001, 0x03), (0x8002, 0x80), (0x8003, 0xC5), (0x8004, 0x40)]

/-- Both clauses: the next opcode is another byte than the one stored, and the very byte stored. -/
theorem witness_NextFetchSeesTheStore :
    (∃ t u, step twoTicks = .next t ∧ step t = .next u ∧ t.pc ≠ resolve (operandsAt twoTicks .abs)) ∧
    (∃ t u, step patches = .next t ∧ step t = .next u ∧ t.pc = resolve (operandsAt patches .abs)) :=
  ⟨⟨_, _, rfl, rfl, by decide⟩, ⟨_, _, rfl, rfl, by decide⟩⟩

theorem witness_IllegalOpcodeTick :
    (oneTick 0xEA []).busDelivers 1 = true ∧ (oneTick 0xEA []).dt.lookup (codeByte (oneTick 0xEA []) 0) = none ∧
    ∃ after, step (oneTick 0xEA []) = .fault (.illegalOpcode 0xEA 0x8000 after) :=
  ⟨by decide, by decide, ⟨_, rfl⟩⟩

theorem witness_OpcodeFetchFailure : (oneTick 0xEA [.failed]).busFailsAfter 0 = true := by decide

/-- The first and the last operand byte, and the data read. -/
theorem witness_OperandOrDataReadFailure :
    (oneTick 0xFE []).dt.lookup (codeByte (oneTick 0xFE []) 0) = some ⟨.inc, .absi⟩ ∧ Mode.absi.operandBytes = 3 ∧
    (oneTick 0xFE [.done, .failed]).busFailsAfter 1 = true ∧
    (oneTick 0xFE [.done, .done, .done, .failed]).busFailsAfter 3 = true ∧
    (oneTick 0xFE [.done, .done, .done, .done, .failed]).busFailsAfter (1 + 3) = true := by decide

theorem witness_DataWriteFailure :
    (oneTick 0xFE []).dt.lookup (codeByte (oneTick 0xFE []) 0) = some ⟨.inc, .absi⟩ ∧
    (oneTick 0xFE [.done, .done, .done, .done, .done, .failed]).busFailsAfter (2 + Mode.absi.operandBytes) = true := by
  decide

theorem witness_ReportOfAnOutcome : ∃ r, step (oneTick 0xEA []) = .fault r := ⟨_, rfl⟩

theorem witness_DispatchTableIsImmutable :
    (∃ u, stateAfter (step twoTicks) = some u) ∧ ∃ u, stateAfter (step (oneTick 0xEA [])) = some u :=
  ⟨⟨_, rfl⟩, ⟨_, rfl⟩⟩

theorem witness_RegisterKeepsTheFirstHandler :
    defaultTable.lookup 0xC7 = none ∧ defaultTable.lookup 0xC6 = some ⟨.dec, .zp⟩ ∧ (0xC6 : Byte) ≠ 0xC7 := by decide

theorem witness_BuiltTableAnswersFirstRegistration :
    buildTable [] [(0xC6, .value ⟨.dec, .zp⟩), (0x02, .value ⟨.inc, .abs⟩), (0xC6, .value ⟨.inc, .zp⟩)] =
      some ([(0x02, ⟨.inc, .abs⟩), (0xC6, ⟨.dec, .zp⟩)], [0xC6]) := by decide

theorem witness_RegistrationOrderDoesNotMatter :
    (0x00 : Byte) ≠ 0xFF ∧ defaultTable.lookup 0x00 = none ∧ defaultTable.lookup 0xFF = none := by decide

theorem witness_HostWritesAreMasked : Reg.x ≠ Reg.a := by decide

theorem witness_FlagSettersAreIdempotent : Flag.carry ≠ Flag.negative := by decide

theorem witness_EveryTickKeepsTheInvariant :
    Inv twoTicks ∧ (∃ u, stateAfter (step twoTicks) = some u) ∧
    Inv (oneTick 0xFE [.done, .done, .done, .done, .done, .failed]) ∧
    ∃ u, stateAfter (step (oneTick 0xFE [.done, .done, .done, .done, .done, .failed])) = some u :=
  ⟨⟨by decide, by decide, by decide, by decide⟩, ⟨_, rfl⟩, ⟨by decide, by decide, by decide, by decide⟩, ⟨_, rfl⟩⟩

theorem witness_MemoriesThatReadAlikeAreEqual :
    Memory.wf (poke [(0xFFFF, 0x01), (0x0000, 0x02)]) = true ∧ Memory.wf [(0, 2), (65535, 1)] = true ∧
    ∀ addr, Memory.read (poke [(0xFFFF, 0x01), (0x0000, 0x02)]) addr = Memory.read [(0, 2), (65535, 1)] addr :=
  ⟨by decide, by decide, fun _ => rfl⟩

theorem witness_ElapsedCyclesOfARun : elapsedCycles 2 twoTicks = some 11 ∧ ∃ t, Completes 2 twoTicks t :=
  ⟨by decide, ⟨_, rfl⟩⟩

theorem witness_RunsKeepWhatNoInstructionWrites : ∃ t, Completes 2 patches t := ⟨_, rfl⟩

end Sys2Proof.Tests
end

/-! ### The registers no tick uses

No part of a tick reads or writes `A`, `X`, `Y` or `SP` (R11, R12, R14): each part commutes with any change of the four,
whatever the bus answers, and so does the tick. -/

namespace Sys2Proof.Machine

open Sys2Proof.Safety

/-- A change of the four 8-bit registers, each by a function of its own value (`id` keeps it). -/
structure RegChange where
  a : Byte → Byte
  x : Byte → Byte
  y : Byte → Byte
  sp : Byte → Byte

/-- The state with its four 8-bit registers changed. -/
def State.mapRegs (g : RegChange) (s : State) : State :=
  { s with a := g.a s.a, x := g.x s.x, y := g.y s.y, sp := g.sp s.sp }

/-- Change the state a fault leaves, keeping what it reports. -/
def Fault.mapState (f : State → State) : Fault → Fault
  | .illegalOpcode op addr s => .illegalOpcode op addr (f s)
  | .busFailure addr dir s => .busFailure addr dir (f s)

/-- Change the state a part of a tick leaves, keeping the value it answers or what its fault reports. -/
def TickPart.mapState {α : Type} (f : State → State) : TickPart α → TickPart α
  | .ok v s => .ok v (f s)
  | .fault r => .fault (r.mapState f)

section

variable (f : State → State)

@[simp] theorem mapState_next (s : State) : mapState f (.next s) = .next (f s) := rfl

@[simp] theorem mapState_fault (r : Fault) : mapState f (.fault r) = .fault (r.mapState f) := by
  cases r <;> rfl

@[simp] theorem TickPart.mapState_ok {α : Type} (v : α) (s : State) :
    (TickPart.ok v s).mapState f = .ok v (f s) := rfl

@[simp] theorem TickPart.mapState_fault {α : Type} (r : Fault) :
    (TickPart.fault r : TickPart α).mapState f = .fault (r.mapState f) := rfl

end

section

variable (g : RegChange) (s : State)

/-! #### One lemma per part of the state that a tick reads, and per update it makes -/

@[simp] theorem State.mapRegs_pc : (s.mapRegs g).pc = s.pc := rfl
@[simp] theorem State.mapRegs_mem : (s.mapRegs g).mem = s.mem := rfl
@[simp] theorem State.mapRegs_dt : (s.mapRegs g).dt = s.dt := rfl
@[simp] theorem State.mapRegs_busFails : (s.mapRegs g).busFails = s.busFails := rfl

@[simp] theorem State.mapRegs_beginTick : (s.mapRegs g).beginTick = s.beginTick.mapRegs g := rfl
@[simp] theorem State.mapRegs_advancePc : (s.mapRegs g).advancePc = s.advancePc.mapRegs g := rfl
@[simp] theorem State.mapRegs_issue (e : BusEvent) : (s.mapRegs g).issue e = (s.issue e).mapRegs g := rfl
@[simp] theorem State.mapRegs_store (addr : Word) (v : Byte) :
    (s.mapRegs g).store addr v = (s.store addr v).mapRegs g := rfl
@[simp] theorem State.mapRegs_scramble (addr : Word) :
    (s.mapRegs g).scramble addr = (s.scramble addr).mapRegs g := rfl
@[simp] theorem State.mapRegs_complete (r c : Byte) :
    (s.mapRegs g).complete r c = (s.complete r c).mapRegs g := rfl

@[simp] theorem takeException_mapRegs (c : Condition) :
    takeException c (s.mapRegs g) = (takeException c s).mapState (State.mapRegs g) := by
  cases c <;> rfl

/-! #### The parts of a tick -/

theorem memRead_mapRegs (addr : Word) :
    memRead addr (s.mapRegs g) = (memRead addr s).mapState (State.mapRegs g) := by
  cases h : s.busFails <;> simp [memRead, h]

theorem memWrite_mapRegs (addr : Word) (v : Byte) :
    memWrite addr v (s.mapRegs g) = (memWrite addr v s).mapState (State.mapRegs g) := by
  cases h : s.busFails <;> simp [memWrite, h]

theorem fetchByte_mapRegs : fetchByte (s.mapRegs g) = (fetchByte s).mapState (State.mapRegs g) := by
  rw [fetchByte, fetchByte, State.mapRegs_pc, memRead_mapRegs]
  cases memRead s.pc s <;> simp

/-- A fetch commutes with the change when the part run on the fetched byte does. -/
theorem fetchThen_mapRegs {α : Type} {next : Byte → State → TickPart α}
    (hnext : ∀ b t, next b (t.mapRegs g) = (next b t).mapState (State.mapRegs g)) :
    fetchThen (s.mapRegs g) next = (fetchThen s next).mapState (State.mapRegs g) := by
  rw [fetchThen, fetchThen, fetchByte_mapRegs]
  cases fetchByte s with
  | ok b t => exact hnext b t
  | fault r => rfl

theorem fetchOperands_mapRegs (m : Mode) :
    fetchOperands m (s.mapRegs g) = (fetchOperands m s).mapState (State.mapRegs g) := by
  cases m with
  | zp => exact fetchThen_mapRegs g s fun _ _ => rfl
  | zpi => exact fetchThen_mapRegs g s fun _ t => fetchThen_mapRegs g t fun _ _ => rfl
  | abs => exact fetchThen_mapRegs g s fun _ t => fetchThen_mapRegs g t fun _ _ => rfl
  | absi =>
    exact fetchThen_mapRegs g s fun _ t => fetchThen_mapRegs g t fun _ u => fetchThen_mapRegs g u fun _ _ => rfl

theorem handler_mapRegs (operation : Operation) (mode : Mode) (ea : Word) :
    handler operation mode ea (s.mapRegs g) = mapState (State.mapRegs g) (handler operation mode ea s) := by
  rw [handler, handler, memRead_mapRegs]
  cases memRead ea s with
  | fault r => simp
  | ok old t =>
    simp only [TickPart.mapState_ok, memWrite_mapRegs]
    cases memWrite ea (alu operation old) t <;> simp

theorem exec_mapRegs (i : Instr) : exec i (s.mapRegs g) = mapState (State.mapRegs g) (exec i s) := by
  simp only [exec_eq_handler, handler_mapRegs]

/-- A tick neither reads nor writes the four 8-bit registers (R11, R12, R14). -/
theorem step_mapRegs : step (s.mapRegs g) = mapState (State.mapRegs g) (step s) := by
  rw [step, step, State.mapRegs_beginTick, fetchByte_mapRegs]
  cases fetchByte s.beginTick with
  | fault r => simp
  | ok op t =>
    simp only [TickPart.mapState_ok, State.mapRegs_dt, State.mapRegs_pc]
    cases t.dt.lookup op with
    | none => simp
    | some v =>
      simp only [fetchOperands_mapRegs]
      cases fetchOperands v.mode t with
      | fault r => simp
      | ok o u => exact exec_mapRegs g u _

end

/-- Settles O37: putting `a` into the accumulator is a change of the four registers, and a tick commutes with those. -/
theorem accumulatorIsInert : Obligations.AccumulatorIsInert := by
  intro s a
  exact step_mapRegs ⟨fun _ => a, id, id, id⟩ s

end Sys2Proof.Machine

/-! ### The transactions of a tick

What a tick that answers one given outcome left behind (one inversion of `step_cases` per outcome), in the terms of the
statements: `codeByte`, `operandsAt`, `fetchEvents` and `dataEvents` (R36). -/

namespace Sys2Proof.Machine

open Sys2Proof.Claims

section

variable (s : State) (m : Mode)

@[simp] theorem codeByte_zero : codeByte s 0 = s.mem.read s.pc := by
  simp [codeByte]

/-- The operand bytes behind a fetched opcode are the code bytes from number 1 on. -/
theorem operandsFrom_fetched_beginTick : operandsFrom s.beginTick.fetched m = operandsAt s m := by
  cases m <;> simp [operandsFrom, operandsAt, codeByte, BitVec.add_assoc]

theorem tickAddress_eq_resolve : tickAddress s m = resolve (operandsAt s m) := by
  rw [tickAddress, operandsFrom_fetched_beginTick]

@[simp] theorem tickFetched_mem : (tickFetched s m).mem = s.mem := by
  simp [tickFetched]

/-- The handler of a tick starts with the reads of the opcode and of the operand bytes behind it, and no other. -/
@[simp] theorem tickFetched_trace : (tickFetched s m).trace = fetchEvents s (1 + m.operandBytes) := by
  rw [tickFetched, State.fetchedBy_trace]
  rfl

/-- The handler body adds the data read and the data write to the transactions before it. -/
@[simp] theorem handled_trace (operation : Operation) (ea : Word) :
    (handled operation m ea s).trace = s.trace ++ dataEvents s ea (alu operation (s.mem.read ea)) := by
  simp [handled, dataEvents]

/-- The transactions of a tick see memory as the tick found it: no fetch changes it. -/
@[simp] theorem dataEvents_tickFetched (ea : Word) (new : Byte) :
    dataEvents (tickFetched s m) ea new = dataEvents s ea new := by
  simp [dataEvents]

end

/-- A tick that completed met a registered opcode, and left what its handler leaves of the fetched state. -/
theorem step_next {s t : State} (h : step s = .next t) :
    ∃ v, s.dt.lookup (codeByte s 0) = some v ∧
      t = handled v.operation v.mode (resolve (operandsAt s v.mode)) (tickFetched s v.mode) := by
  rcases step_cases s with ⟨_, hs⟩ | ⟨_, _, hs⟩ | ⟨v, hl, hv⟩
  · simp [hs] at h
  · simp [hs] at h
  · rcases hv with ⟨_, _, _, _, hs⟩ | ⟨_, hs⟩ | ⟨_, hs⟩ | ⟨_, hs⟩
    · simp [hs] at h
    · simp [hs] at h
    · simp [hs] at h
    · obtain rfl := Host.Outcome.next.inj (hs.symm.trans h)
      exact ⟨v, by simpa using hl, by rw [tickAddress_eq_resolve]⟩

/-- A tick that ended in `illegalOpcode` met an unregistered byte at `PC`, and left the state behind its fetch. -/
theorem step_illegalOpcode {s after : State} {op : Byte} {addr : Word}
    (h : step s = .fault (.illegalOpcode op addr after)) :
    s.dt.lookup (codeByte s 0) = none ∧ op = codeByte s 0 ∧ addr = s.pc ∧
      after = s.beginTick.fetched.dropCycles := by
  rcases step_cases s with ⟨_, hs⟩ | ⟨_, hl, hs⟩ | ⟨v, _, hv⟩
  · simp [hs] at h
  · simp only [hs, Host.Outcome.fault.injEq, Fault.illegalOpcode.injEq] at h
    obtain ⟨hop, haddr, hafter⟩ := h
    exact ⟨by simpa using hl, by simp [hop], haddr.symm, hafter.symm⟩
  · rcases hv with ⟨_, _, _, _, hs⟩ | ⟨_, hs⟩ | ⟨_, hs⟩ | ⟨_, hs⟩ <;> simp [hs] at h

/-- Settles O35: a completed tick is the handler body on the fetched state, whose transactions are the fetches; a tick
that meets an unregistered opcode ends in the state behind the opcode fetch. -/
theorem transactionsOfATick : Obligations.TransactionsOfATick := by
  constructor
  · intro s t h
    obtain ⟨v, hl, rfl⟩ := step_next h
    exact ⟨v, hl, by simp⟩
  · intro s op addr after h
    obtain ⟨_, _, _, rfl⟩ := step_illegalOpcode h
    simp

end Sys2Proof.Machine

/-! ### Decoding one instruction

Operand bytes belong to one mode, and reading a mode's operand bytes either finds too few or takes exactly those; so the
value registered for the opcode byte decides what `decode` answers (R56, R60). -/

namespace Sys2Proof

open Sys2Proof.Claims

/-- The addressing mode whose operand bytes these are (R50 to R54). -/
def Operands.mode : Operands → Mode
  | .zp _ => .zp
  | .zpi _ _ => .zpi
  | .abs _ _ => .abs
  | .absi _ _ _ => .absi

@[simp] theorem Operands.bytes_length (o : Operands) : o.bytes.length = o.mode.operandBytes := by
  cases o <;> rfl

@[simp] theorem Instr.ofOperands_value (operation : Operation) (o : Operands) :
    (Instr.ofOperands operation o).value = ⟨operation, o.mode⟩ := by
  cases operation <;> cases o <;> rfl

/-- Reading the operand bytes of a mode fails on a list that is too short, and else splits the list behind them. -/
theorem Operands.ofBytes_cases (m : Mode) (bytes : List Byte) :
    (Operands.ofBytes m bytes = none ∧ bytes.length < m.operandBytes) ∨
    ∃ o rest, Operands.ofBytes m bytes = some (o, rest) ∧ o.mode = m ∧ bytes = o.bytes ++ rest := by
  fun_cases Operands.ofBytes m bytes
  case case1 address rest => exact .inr ⟨.zp address, rest, rfl, rfl, rfl⟩
  case case3 base index rest => exact .inr ⟨.zpi base index, rest, rfl, rfl, rfl⟩
  case case6 low high rest => exact .inr ⟨.abs low high, rest, rfl, rfl, rfl⟩
  case case9 low high index rest => exact .inr ⟨.absi low high index, rest, rfl, rfl, rfl⟩
  all_goals exact .inl ⟨rfl, by simp [Mode.operandBytes]⟩

section

variable {dt : DispatchTable} {op : Byte}

theorem decode_illegal (h : dt.lookup op = none) (bytes : List Byte) :
    decode dt (op :: bytes) = .error (.illegalOpcode op) := by
  simp [decode, h]

theorem decode_truncated {v : InstrValue} {bytes : List Byte} (h : dt.lookup op = some v)
    (hb : Operands.ofBytes v.mode bytes = none) : decode dt (op :: bytes) = .error .truncated := by
  simp [decode, h, hb]

theorem decode_ok {v : InstrValue} {bytes rest : List Byte} {o : Operands} (h : dt.lookup op = some v)
    (hb : Operands.ofBytes v.mode bytes = some (o, rest)) :
    decode dt (op :: bytes) = .ok (Instr.ofOperands v.operation o, rest) := by
  simp [decode, h, hb]

end

/-- Settles O4: an unregistered opcode byte ends decoding at once; a registered one leaves only the question whether the
operand bytes of its mode are all there. -/
theorem opcodeByteDecidesAlone : Obligations.OpcodeByteDecidesAlone := by
  intro dt op bytes
  refine ⟨fun h => decode_illegal h bytes, fun v hv => ?_⟩
  obtain ⟨hb, hlen⟩ | ⟨o, rest, hb, hm, rfl⟩ := Operands.ofBytes_cases v.mode bytes
  · exact ⟨fun _ => decode_truncated hv hb, fun h => absurd h (by omega)⟩
  · have hvalue : (Instr.ofOperands v.operation o).value = v := by simp [hm]
    refine ⟨fun h => absurd h (by simp [hm]), fun _ => ⟨_, ?_, hvalue, ?_⟩⟩
    · simpa [← hm] using decode_ok hv hb
    · rw [Instr.length, hvalue, InstrValue.length]

end Sys2Proof

/-! ### The effective address of each addressing mode -/

namespace Sys2Proof.Machine

open Sys2Proof.Claims

section

variable (zp base low high index : Byte)

theorem resolve_zp_toNat : (resolve (.zp zp)).toNat = zp.toNat := by
  have h := zp.isLt
  simp only [resolve, BitVec.toNat_setWidth]
  omega

theorem resolve_zpi_toNat : (resolve (.zpi base index)).toNat = (base.toNat + index.toNat) % 256 := by
  simp only [resolve, BitVec.toNat_setWidth, BitVec.toNat_add]
  omega

theorem resolve_abs_toNat : (resolve (.abs low high)).toNat = high.toNat * 256 + low.toNat :=
  wordOfBytes_toNat high low

theorem resolve_absi_toNat :
    (resolve (.absi low high index)).toNat = (high.toNat * 256 + low.toNat + index.toNat) % 65536 := by
  simp only [resolve, BitVec.toNat_add, BitVec.toNat_setWidth, wordOfBytes_toNat]
  omega

end

/-- Settles O10: one lemma per mode; both sums wrap at the width they are made in (R55). -/
theorem effectiveAddressOfEachMode : Obligations.EffectiveAddressOfEachMode :=
  ⟨resolve_zp_toNat, resolve_zpi_toNat, resolve_abs_toNat, resolve_absi_toNat⟩

end Sys2Proof.Machine

/-! ### What a tick advances, counts and keeps

The fetches advance `PC` by the length of the instruction and the handler body leaves it there (R77); the handler body
reports the count of its mode (R79); no part of a tick writes the dispatch table or `BUS_CAN_FAIL` (R75). -/

namespace Sys2Proof.Machine

open Sys2Proof.Claims Sys2Proof.Safety

section

variable (s : State) (operation : Operation) (m : Mode) (ea : Word)

@[simp] theorem handled_pc : (handled operation m ea s).pc = s.pc := rfl
@[simp] theorem handled_cycles : (handled operation m ea s).cycles = modeCycles m := rfl
@[simp] theorem handled_dt : (handled operation m ea s).dt = s.dt := rfl
@[simp] theorem handled_busCanFail : (handled operation m ea s).busCanFail = s.busCanFail := rfl

@[simp] theorem tickFetched_pc : (tickFetched s m).pc = s.pc + BitVec.ofNat 16 (1 + m.operandBytes) := by
  simp [tickFetched]

@[simp] theorem tickFetched_dt : (tickFetched s m).dt = s.dt := by
  simp [tickFetched]

@[simp] theorem tickFetched_busCanFail : (tickFetched s m).busCanFail = s.busCanFail := by
  simp [tickFetched]

/-- The advance of `PC` as a number, modulo 65536 (R13, R77). -/
theorem tickFetched_pc_toNat : (tickFetched s m).pc.toNat = (s.pc.toNat + 1 + m.operandBytes) % 65536 := by
  rw [tickFetched_pc, BitVec.toNat_add, BitVec.toNat_ofNat, Nat.add_mod_mod, Nat.add_assoc]

end

@[simp] theorem stateAfter_next (s : State) : stateAfter (.next s) = some s := rfl

@[simp] theorem stateAfter_fault (r : Fault) : stateAfter (.fault r) = some r.after := rfl

@[simp] theorem Fault.after_illegalOpcode (op : Byte) (addr : Word) (s : State) :
    (Fault.illegalOpcode op addr s).after = s := rfl

@[simp] theorem Fault.after_busFailure (addr : Word) (dir : BusDir) (s : State) :
    (Fault.busFailure addr dir s).after = s := rfl

/-- Settles O33: a completed tick is the handler body on the fetched state, and only the fetches move `PC`. -/
theorem sequentialAdvanceOfPc : Obligations.SequentialAdvanceOfPc := by
  intro s t h
  obtain ⟨v, hl, rfl⟩ := step_next h
  refine ⟨v, hl, ?_, ?_⟩
  · rw [handled_pc, tickFetched_pc_toNat]
  · cases v.mode <;> rfl

/-- Settles O34: the count of a completed tick is the one its handler body reports, `modeCycles` of its mode. -/
theorem cycleCountByMode : Obligations.CycleCountByMode := by
  intro s t h
  obtain ⟨v, hl, rfl⟩ := step_next h
  refine ⟨v, hl, ?_⟩
  rw [handled_cycles]
  cases v.mode <;> rfl

/-- Settles O47: each outcome of a tick leaves a state made from the one before it by updates that keep both. -/
theorem dispatchTableIsImmutable : Obligations.DispatchTableIsImmutable := by
  intro s u h
  rcases step_cases s with ⟨_, hs⟩ | ⟨_, _, hs⟩ | ⟨v, _, hv⟩
  · obtain rfl : _ = u := by simpa [hs] using h
    simp
  · obtain rfl : _ = u := by simpa [hs] using h
    simp
  · rcases hv with ⟨_, _, _, _, hs⟩ | ⟨_, hs⟩ | ⟨_, hs⟩ | ⟨_, hs⟩ <;>
    · obtain rfl : _ = u := by simpa [hs] using h
      simp

end Sys2Proof.Machine

/-! ### A dispatched instruction as a whole tick

A tick that meets a registered opcode completes exactly on a bus that answers all its transactions, and stops with
`BusFailure` on every other (R100, R105). What the completed tick did is what the handler body does to the fetched
state, since the fetches change nothing `Rmw` speaks of. -/

namespace Sys2Proof.Machine

open Sys2Proof.Claims Sys2Proof.Safety

/-- A tick that meets a registered opcode and a failed read of its operand byte numbered `j` from 0. -/
theorem step_operandFailed {s : State} {v : InstrValue} {j : Nat}
    (hl : s.dt.lookup (s.mem.read s.pc) = some v) (hj : j < v.mode.operandBytes)
    (hf : s.busFailsAfter (j + 1) = true) :
    step s = .fault (.busFailure (s.pc + 1 + BitVec.ofNat 16 j) .read
      ((s.beginTick.fetched.fetchedBy j).issue (.read (s.pc + 1 + BitVec.ofNat 16 j) none)).dropCycles) := by
  have hnext : s.beginTick.fetched.busFailsAfter j = true := State.busFailsAfter_tail hf rfl rfl
  rw [step_dispatched s (State.busFails_of_busFailsAfter hf) hl, fetchOperands_failed _ hj hnext]
  simp

/-- The two outcomes of a tick that meets the registered value `v`, told apart by the bus alone. -/
theorem step_next_or_busFailure {s : State} {v : InstrValue} (hl : s.dt.lookup (codeByte s 0) = some v) :
    (s.busDelivers (3 + v.mode.operandBytes) = true ∧
      step s = .next (handled v.operation v.mode (resolve (operandsAt s v.mode)) (tickFetched s v.mode))) ∨
    (s.busDelivers (3 + v.mode.operandBytes) = false ∧
      ∃ addr dir after, step s = .fault (.busFailure addr dir after)) := by
  have hstops : ∀ {k addr dir after}, k < 3 + v.mode.operandBytes → s.busFailsAfter k = true →
      step s = .fault (.busFailure addr dir after) → s.busDelivers (3 + v.mode.operandBytes) = false ∧
        ∃ addr dir after, step s = .fault (.busFailure addr dir after) :=
    fun hk hf hs => ⟨Bool.eq_false_iff.2 fun hd => State.not_busFailsAfter_of_busDelivers hk hd hf, _, _, _, hs⟩
  rw [codeByte_zero] at hl
  rcases step_cases s with ⟨hf, hs⟩ | ⟨_, hnone, _⟩ | ⟨w, hw, hcases⟩
  · exact .inr (hstops (by omega) hf hs)
  · simp [hl] at hnone
  · obtain rfl : v = w := Option.some.inj (hl.symm.trans hw)
    rcases hcases with ⟨k, _, hk, hf, hs⟩ | ⟨hf, hs⟩ | ⟨hf, hs⟩ | ⟨hd, hs⟩
    · exact .inr (hstops (by omega) hf hs)
    · exact .inr (hstops (by omega) hf hs)
    · exact .inr (hstops (by omega) hf hs)
    · exact .inl ⟨hd, by rw [hs, tickAddress_eq_resolve]⟩

/-- The handler body reads one byte, writes the ALU's answer back, sets NEGATIVE and ZERO, and does nothing else to
memory, registers or flags (R78). -/
theorem handled_rmw (operation : Operation) (m : Mode) (ea : Word) (s : State) :
    Rmw s (handled operation m ea s) ea (alu operation (s.mem.read ea)) (modeCycles m).toNat where
  cell := by simp [handled]
  otherCells addr h := by simp [handled, Memory.read_write_other _ h]
  negative := rfl
  zero := rfl
  otherFlags := ⟨rfl, rfl, rfl, rfl, rfl⟩
  registers := ⟨rfl, rfl, rfl, rfl⟩
  count := rfl
  parameters := ⟨rfl, rfl⟩

section

variable (s : State) (m : Mode)

@[simp] theorem tickFetched_a : (tickFetched s m).a = s.a := State.fetchedBy_a ..
@[simp] theorem tickFetched_x : (tickFetched s m).x = s.x := State.fetchedBy_x ..
@[simp] theorem tickFetched_y : (tickFetched s m).y = s.y := State.fetchedBy_y ..
@[simp] theorem tickFetched_sp : (tickFetched s m).sp = s.sp := State.fetchedBy_sp ..
@[simp] theorem tickFetched_p : (tickFetched s m).p = s.p := State.fetchedBy_p ..

end

/-- A change of the fetched state is that change of the state the tick started in. -/
theorem rmw_of_tickFetched {s t : State} {m : Mode} {ea : Word} {new : Byte} {cycles : Nat}
    (h : Rmw (tickFetched s m) t ea new cycles) : Rmw s t ea new cycles where
  cell := h.cell
  otherCells := by simpa using h.otherCells
  negative := h.negative
  zero := h.zero
  otherFlags := by simpa using h.otherFlags
  registers := by simpa using h.registers
  count := h.count
  parameters := by simpa using h.parameters

/-- The whole tick of a registered value, for any numeric reading `f` of its ALU operation. -/
theorem tickSpec_of_lookup {s : State} {v : InstrValue} {f : Nat → Nat}
    (hl : s.dt.lookup (codeByte s 0) = some v) (hf : ∀ old, alu v.operation old = BitVec.ofNat 8 (f old.toNat)) :
    TickSpec s (1 + v.mode.operandBytes) (modeCycles v.mode).toNat (resolve (operandsAt s v.mode)) f := by
  have hlen : 1 + v.mode.operandBytes + 2 = 3 + v.mode.operandBytes := by omega
  rw [TickSpec, hlen, ← hf]
  rcases step_next_or_busFailure hl with ⟨hd, hs⟩ | ⟨hd, hstop⟩
  · refine ⟨fun _ => ⟨_, hs, ?_, ?_, ?_⟩, fun hd' => absurd hd (by simp [hd'])⟩
    · exact rmw_of_tickFetched (by simpa using handled_rmw v.operation v.mode _ (tickFetched s v.mode))
    · rw [handled_pc, tickFetched_pc_toNat, Nat.add_assoc]
    · simp
  · exact ⟨fun hd' => absurd hd' (by simp [hd]), fun _ => hstop⟩

end Sys2Proof.Machine

/-! ### The flags no tick reads

The flags come into a tick only where a completed handler body writes NEGATIVE and ZERO and keeps the other five; every
other part carries them along (R16). -/

namespace Sys2Proof.Machine

open Sys2Proof.Claims Sys2Proof.Safety

/-- The state with the flags `q` instead of its own. -/
def State.replaceFlags (q : Flags) (s : State) : State := { s with p := q }

section

variable (q : Flags) (s : State)

@[simp] theorem State.replaceFlags_pc : (s.replaceFlags q).pc = s.pc := rfl
@[simp] theorem State.replaceFlags_mem : (s.replaceFlags q).mem = s.mem := rfl
@[simp] theorem State.replaceFlags_dt : (s.replaceFlags q).dt = s.dt := rfl

@[simp] theorem State.replaceFlags_beginTick : (s.replaceFlags q).beginTick = s.beginTick.replaceFlags q := rfl
@[simp] theorem State.replaceFlags_fetched : (s.replaceFlags q).fetched = s.fetched.replaceFlags q := rfl
@[simp] theorem State.replaceFlags_issue (e : BusEvent) :
    (s.replaceFlags q).issue e = (s.issue e).replaceFlags q := rfl
@[simp] theorem State.replaceFlags_scramble (addr : Word) :
    (s.replaceFlags q).scramble addr = (s.scramble addr).replaceFlags q := rfl
@[simp] theorem State.replaceFlags_dropCycles : (s.replaceFlags q).dropCycles = s.dropCycles.replaceFlags q := rfl

@[simp] theorem State.replaceFlags_fetchedBy (n : Nat) :
    (s.replaceFlags q).fetchedBy n = (s.fetchedBy n).replaceFlags q := by
  induction n generalizing s with
  | zero => rfl
  | succ n ih => simp [State.fetchedBy, ih]

@[simp] theorem operandsFrom_replaceFlags (m : Mode) : operandsFrom (s.replaceFlags q) m = operandsFrom s m := by
  cases m <;> rfl

@[simp] theorem withFlags_illegalOpcode (op : Byte) (addr : Word) :
    withFlags q (.fault (.illegalOpcode op addr s)) = .fault (.illegalOpcode op addr (s.replaceFlags q)) := rfl

@[simp] theorem withFlags_busFailure (addr : Word) (dir : BusDir) :
    withFlags q (.fault (.busFailure addr dir s)) = .fault (.busFailure addr dir (s.replaceFlags q)) := rfl

/-- The completed handler body writes NEGATIVE and ZERO from the byte alone and keeps the other five flags. -/
theorem handled_replaceFlags (operation : Operation) (m : Mode) (ea : Word) :
    .next (handled operation m ea (s.replaceFlags q)) = withFlags q (.next (handled operation m ea s)) := rfl

theorem handler_replaceFlags (operation : Operation) (m : Mode) (ea : Word) :
    handler operation m ea (s.replaceFlags q) = withFlags q (handler operation m ea s) := by
  have hfails : ∀ t : State, (t.replaceFlags q).busFails = t.busFails := fun _ => rfl
  cases hread : s.busFails with
  | true => simp [handler, memRead_failed, hfails, hread]
  | false =>
    cases hwrite : (s.issue (.read ea (some (s.mem.read ea)))).busFails with
    | true => simp [handler, memRead_delivered, memWrite_failed, hfails, hread, hwrite]
    | false =>
      simp only [handler, memRead_delivered, memWrite_delivered, hfails, hread, hwrite, State.replaceFlags_mem,
        State.replaceFlags_issue]
      exact handled_replaceFlags q s operation m ea

/-- A tick reads no flag: with the flags `q` it does the same, and keeps of `q` what it does not write (R16). -/
theorem step_replaceFlags : step (s.replaceFlags q) = withFlags q (step s) := by
  cases hopcode : s.busFails with
  | true =>
    rw [step_fetchFailed s hopcode, step_fetchFailed (s.replaceFlags q) hopcode]
    simp
  | false =>
    cases hl : s.dt.lookup (s.mem.read s.pc) with
    | none =>
      rw [step_illegal s hopcode hl, step_illegal (s.replaceFlags q) hopcode hl]
      simp
    | some v =>
      rcases s.busDelivers_or_busFailsAfter (1 + v.mode.operandBytes) with hd | ⟨k, hk, hf⟩
      · rw [step_handler s hl hd, step_handler (s.replaceFlags q) hl hd]
        simp [handler_replaceFlags]
      · cases k with
        | zero => simp [hopcode] at hf
        | succ j =>
          have hj : j < v.mode.operandBytes := by omega
          rw [step_operandFailed hl hj hf, step_operandFailed (s := s.replaceFlags q) hl hj hf]
          simp

end

/-- A tick commutes with a change of the four registers (R11, R12, R14) and reads no flag (R16), so one with both
changes differs from the tick at `s` by exactly these. -/
theorem readsOnlyPc (s : State) : ReadsOnlyPc s := by
  intro a x y sp q
  have hregs := step_mapRegs ⟨fun _ => a, fun _ => x, fun _ => y, fun _ => sp⟩ (s.replaceFlags q)
  rw [step_replaceFlags] at hregs
  exact hregs

end Sys2Proof.Machine

/-! ### The increment family

`alu .inc` is the spec's `(old + 1) mod 256`; the effective address of each mode is stated as the word of its number. -/

namespace Sys2Proof.Machine

open Sys2Proof.Claims

theorem alu_inc_eq_plusOne (old : Byte) : alu .inc old = BitVec.ofNat 8 (plusOne old.toNat) := by
  apply BitVec.eq_of_toNat_eq
  simp [alu, plusOne]

section

variable (zp base low high index : Byte)

theorem resolve_zp : resolve (.zp zp) = BitVec.ofNat 16 zp.toNat := by
  rw [← resolve_zp_toNat, BitVec.ofNat_toNat, BitVec.setWidth_eq]

theorem resolve_zpi : resolve (.zpi base index) = BitVec.ofNat 16 ((base.toNat + index.toNat) % 256) := by
  rw [← resolve_zpi_toNat, BitVec.ofNat_toNat, BitVec.setWidth_eq]

theorem resolve_abs : resolve (.abs low high) = BitVec.ofNat 16 (high.toNat * 256 + low.toNat) := by
  rw [← resolve_abs_toNat, BitVec.ofNat_toNat, BitVec.setWidth_eq]

theorem resolve_absi : resolve (.absi low high index) =
    BitVec.ofNat 16 ((high.toNat * 256 + low.toNat + index.toNat) % 65536) := by
  rw [← resolve_absi_toNat, BitVec.ofNat_toNat, BitVec.setWidth_eq]

end

/-- Settles O17: the whole tick of any registered value, at the ALU's increment; and no tick reads a register but `PC`
or a flag. -/
theorem incFamilyTick : Obligations.IncFamilyTick := by
  intro s m hl
  exact ⟨tickSpec_of_lookup hl alu_inc_eq_plusOne, readsOnlyPc s⟩

/-- Settles O19: the family's tick in mode ZP, whose address is the operand byte itself (R86). -/
theorem tickOfIncZp : Obligations.TickOfIncZp := by
  refine ⟨by decide, fun s hl => ?_⟩
  rw [← resolve_zp]
  exact (incFamilyTick s .zp hl).1

/-- Settles O20: the family's tick in mode ZPI, whose address sum wraps at 8 bits (R87). -/
theorem tickOfIncZpi : Obligations.TickOfIncZpi := by
  refine ⟨by decide, fun s hl => ?_⟩
  rw [← resolve_zpi]
  exact (incFamilyTick s .zpi hl).1

/-- Settles O21: the family's tick in mode ABS, whose address has the second operand byte on top (R88). -/
theorem tickOfIncAbs : Obligations.TickOfIncAbs := by
  refine ⟨by decide, fun s hl => ?_⟩
  rw [← resolve_abs]
  exact (incFamilyTick s .abs hl).1

/-- Settles O22: the family's tick in mode ABSI, whose address sum wraps at 16 bits (R89). -/
theorem tickOfIncAbsi : Obligations.TickOfIncAbsi := by
  refine ⟨by decide, fun s hl => ?_⟩
  rw [← resolve_absi]
  exact (incFamilyTick s .absi hl).1

end Sys2Proof.Machine

/-! ### The decrement family

`alu .dec` is the spec's `(old - 1) mod 256`; the whole tick is the one proved for every registered value. -/

namespace Sys2Proof.Machine

open Sys2Proof.Claims

theorem alu_dec_eq_minusOne (old : Byte) : alu .dec old = BitVec.ofNat 8 (minusOne old.toNat) := by
  apply BitVec.eq_of_toNat_eq
  simp [alu, minusOne, Nat.add_comm]

/-- Settles O18: the whole tick of any registered value, at the ALU's decrement; and no tick reads a register but `PC`
or a flag. -/
theorem decFamilyTick : Obligations.DecFamilyTick := by
  intro s m hl
  exact ⟨tickSpec_of_lookup hl alu_dec_eq_minusOne, readsOnlyPc s⟩

/-- Settles O23: the family's tick in mode ZP, whose address is the operand byte itself (R86). -/
theorem tickOfDecZp : Obligations.TickOfDecZp := by
  refine ⟨by decide, fun s hl => ?_⟩
  rw [← resolve_zp]
  exact (decFamilyTick s .zp hl).1

/-- Settles O24: the family's tick in mode ZPI, whose address sum wraps at 8 bits (R87). -/
theorem tickOfDecZpi : Obligations.TickOfDecZpi := by
  refine ⟨by decide, fun s hl => ?_⟩
  rw [← resolve_zpi]
  exact (decFamilyTick s .zpi hl).1

/-- Settles O25: the family's tick in mode ABS, whose address has the second operand byte on top (R88). -/
theorem tickOfDecAbs : Obligations.TickOfDecAbs := by
  refine ⟨by decide, fun s hl => ?_⟩
  rw [← resolve_abs]
  exact (decFamilyTick s .abs hl).1

/-- Settles O26: the family's tick in mode ABSI, whose address sum wraps at 16 bits (R89). -/
theorem tickOfDecAbsi : Obligations.TickOfDecAbsi := by
  refine ⟨by decide, fun s hl => ?_⟩
  rw [← resolve_absi]
  exact (decFamilyTick s .absi hl).1

end Sys2Proof.Machine

/-! ### The unregistered opcode

Whether the byte at `PC` is registered is decided behind one delivered read, before any operand read and any write. -/

namespace Sys2Proof.Machine

/-- Settles O41: the state the fault carries is the one behind the opcode fetch, which keeps memory and whose only
transaction is that read. -/
theorem unregisteredOpcodeEndsTheTick : Obligations.UnregisteredOpcodeEndsTheTick := by
  intro s hl hbus
  have hfetch : s.busFails = false := State.busFails_of_busDelivers hbus
  rw [codeByte_zero] at hl ⊢
  exact ⟨_, step_illegal s hfetch hl, by simp, by simp⟩

end Sys2Proof.Machine

/-! ### The dispatch table as a function

A table in canonical form answers for a byte exactly what is listed under it, and registering a free byte lists it in
its place by number; so the order of registration leaves no trace (R73, R75, R76, D10). -/

namespace Sys2Proof

open Sys2Proof.Machine

section

variable {dt : DispatchTable} {op : Byte} {v : InstrValue}

/-! #### What a table answers -/

theorem DispatchTable.lookup_eq_none_iff : dt.lookup op = none ↔ op ∉ dt.map Prod.fst := by
  fun_induction DispatchTable.lookup dt op with
  | case1 => simp
  | case2 => simp
  | case3 op k v rest hk ih => simp [ih, Ne.symm hk]

theorem DispatchTable.mem_of_lookup (h : dt.lookup op = some v) : (op, v) ∈ dt := by
  fun_induction DispatchTable.lookup dt op with
  | case1 => cases h
  | case2 => simp_all
  | case3 op k v rest hk ih => exact List.mem_cons_of_mem _ (ih h)

theorem DispatchTable.mem_of_opcodeOf (h : dt.opcodeOf v = some op) : (op, v) ∈ dt := by
  fun_induction DispatchTable.opcodeOf dt v with
  | case1 => cases h
  | case2 => simp_all
  | case3 v k v' rest hv ih => exact List.mem_cons_of_mem _ (ih h)

/-- A table gives an opcode byte to exactly the instruction values it lists. -/
theorem DispatchTable.opcodeOf_isSome (dt : DispatchTable) (v : InstrValue) :
    (dt.opcodeOf v).isSome = dt.any fun e => decide (e.2 = v) := by
  fun_induction DispatchTable.opcodeOf dt v with
  | case1 => rfl
  | case2 => simp
  | case3 v k v' rest hv ih => simp [ih, hv]

/-- The canonical form, said of the whole list at once. -/
theorem DispatchTable.wf_iff (dt : DispatchTable) :
    dt.wf = true ↔ dt.Pairwise fun e e' => e.1.toNat < e'.1.toNat := by
  fun_induction DispatchTable.wf dt with
  | case1 => simp
  | case2 => simp
  | case3 k v k' v' rest ih =>
    simp only [Bool.and_eq_true, decide_eq_true_eq, ih, List.pairwise_cons, List.mem_cons, forall_eq_or_imp]
    constructor
    · rintro ⟨hk, hrest, hpair⟩
      exact ⟨⟨hk, fun e he => Nat.lt_trans hk (hrest e he)⟩, hrest, hpair⟩
    · rintro ⟨⟨hk, _⟩, hrest, hpair⟩
      exact ⟨hk, hrest, hpair⟩

/-- A table in canonical form has one entry a byte: it answers every entry it lists. -/
theorem DispatchTable.lookup_of_mem (hwf : dt.wf = true) (h : (op, v) ∈ dt) : dt.lookup op = some v := by
  rw [DispatchTable.wf_iff] at hwf
  induction dt with
  | nil => cases h
  | cons e rest ih =>
    obtain ⟨hlt, hpair⟩ := List.pairwise_cons.1 hwf
    rcases List.mem_cons.1 h with rfl | hmem
    · simp [DispatchTable.lookup]
    · have hne : e.1 ≠ op := fun he => absurd (hlt _ hmem) (by simp [he])
      rw [DispatchTable.lookup, if_neg hne, ih hpair hmem]

/-! #### A byte listed in its place -/

theorem DispatchTable.lookup_insert (hfree : dt.lookup op = none) (v : InstrValue) (other : Byte) :
    (DispatchTable.insert dt op v).lookup other = if op = other then some v else dt.lookup other := by
  induction dt with
  | nil => rfl
  | cons e rest ih =>
    obtain ⟨k, w⟩ := e
    obtain ⟨hne, hrest⟩ : k ≠ op ∧ DispatchTable.lookup rest op = none := by
      simpa [DispatchTable.lookup, ite_eq_iff] using hfree
    rw [DispatchTable.insert]
    split
    · rfl
    · by_cases hk : k = other
      · simp [DispatchTable.lookup, hk, show op ≠ other from fun h => hne (hk.trans h.symm)]
      · simp [DispatchTable.lookup, hk, ih hrest]

theorem DispatchTable.mem_insert {e : Byte × InstrValue} (h : e ∈ DispatchTable.insert dt op v) :
    e = (op, v) ∨ e ∈ dt := by
  fun_induction DispatchTable.insert dt op v with
  | case1 => simpa using h
  | case2 => simpa using h
  | case3 k w rest op v hle ih =>
    rcases List.mem_cons.1 h with rfl | hmem
    · exact .inr List.mem_cons_self
    · exact (ih hmem).imp_right (List.mem_cons_of_mem _)

/-- Registering a free byte keeps the canonical form. -/
theorem DispatchTable.wf_insert (hwf : dt.wf = true) (hfree : dt.lookup op = none) (v : InstrValue) :
    (DispatchTable.insert dt op v).wf = true := by
  rw [DispatchTable.lookup_eq_none_iff] at hfree
  rw [DispatchTable.wf_iff] at hwf ⊢
  fun_induction DispatchTable.insert dt op v with
  | case1 => simp
  | case2 k w rest op v hlt =>
    obtain ⟨hrest, _⟩ := List.pairwise_cons.1 hwf
    refine List.pairwise_cons.2 ⟨fun e he => ?_, hwf⟩
    rcases List.mem_cons.1 he with rfl | hmem
    · exact hlt
    · exact Nat.lt_trans hlt (hrest e hmem)
  | case3 k w rest op v hle ih =>
    obtain ⟨hrest, hpair⟩ := List.pairwise_cons.1 hwf
    obtain ⟨hne, hnotin⟩ : op ≠ k ∧ op ∉ rest.map Prod.fst := by simpa using hfree
    refine List.pairwise_cons.2 ⟨fun e he => ?_, ih hpair hnotin⟩
    rcases DispatchTable.mem_insert he with rfl | hmem
    · have : op.toNat ≠ k.toNat := fun h => hne (BitVec.eq_of_toNat_eq h)
      show k.toNat < op.toNat
      omega
    · exact hrest e hmem

/-- Two bytes are each listed before the first entry with a greater number, whichever comes first. -/
theorem DispatchTable.insert_comm_of_lt (dt : DispatchTable) {op op' : Byte} (hlt : op.toNat < op'.toNat)
    (v v' : InstrValue) :
    DispatchTable.insert (DispatchTable.insert dt op v) op' v' =
      DispatchTable.insert (DispatchTable.insert dt op' v') op v := by
  have hge : ¬op'.toNat < op.toNat := by omega
  induction dt with
  | nil => simp [DispatchTable.insert, hlt, hge]
  | cons e rest ih =>
    obtain ⟨k, w⟩ := e
    by_cases hk : op.toNat < k.toNat
    · by_cases hk' : op'.toNat < k.toNat <;> simp [DispatchTable.insert, hk, hk', hlt, hge]
    · have hk' : ¬op'.toNat < k.toNat := by omega
      simp [DispatchTable.insert, hk, hk', ih]

end

/-! #### Registration -/

section

variable {table : DispatchTable} {op : Byte} {v : InstrValue}

theorem register_free (h : table.lookup op = none) (v : InstrValue) :
    register table op (.value v) = .accepted (DispatchTable.insert table op v) := by
  simp [register, h]

theorem register_taken {w : InstrValue} (h : table.lookup op = some w) (v : InstrValue) :
    register table op (.value v) = .duplicate table := by
  simp [register, h]

/-- Registering two different free bytes lists both and reports neither. -/
theorem buildTable_two_free {op' : Byte} (hne : op ≠ op') (h : table.lookup op = none)
    (h' : table.lookup op' = none) (v v' : InstrValue) :
    buildTable table [(op, .value v), (op', .value v')] =
      some (DispatchTable.insert (DispatchTable.insert table op v) op' v', []) := by
  have hfree : (DispatchTable.insert table op v).lookup op' = none := by
    rw [DispatchTable.lookup_insert h, if_neg hne, h']
  simp [buildTable, register_free h, register_free hfree]

end

/-- A registration sequence keeps what the table already answers, and else the first registration of a byte counts. -/
theorem buildTable_answers {regs : List (Byte × Handler)} {table built : DispatchTable} {reported : List Byte}
    (hwf : table.wf = true) (h : buildTable table regs = some (built, reported)) :
    built.wf = true ∧ ∀ op, built.lookup op =
      (table.lookup op).or ((regs.find? fun e => decide (e.1 = op)).bind fun e => e.2.toValue) := by
  induction regs generalizing table reported with
  | nil =>
    obtain ⟨rfl, _⟩ : table = built ∧ [] = reported := by simpa [buildTable] using h
    exact ⟨hwf, by simp⟩
  | cons reg rest ih =>
    obtain ⟨k, handler⟩ := reg
    cases handler with
    | outside => simp [buildTable, register] at h
    | value v =>
      cases hk : table.lookup k with
      | some w =>
        obtain ⟨reported', h', _⟩ : ∃ reported', buildTable table rest = some (built, reported') ∧
            k :: reported' = reported := by
          simpa [buildTable, register_taken hk] using h
        obtain ⟨hbuilt, hanswers⟩ := ih hwf h'
        refine ⟨hbuilt, fun op => ?_⟩
        by_cases hop : k = op
        · subst hop
          simp [hanswers, hk]
        · simp [hanswers, hop]
      | none =>
        have h' : buildTable (DispatchTable.insert table k v) rest = some (built, reported) := by
          simpa [buildTable, register_free hk] using h
        obtain ⟨hbuilt, hanswers⟩ := ih (DispatchTable.wf_insert hwf hk v) h'
        refine ⟨hbuilt, fun op => ?_⟩
        rw [hanswers, DispatchTable.lookup_insert hk]
        by_cases hop : k = op
        · subst hop
          simp [hk, Handler.toValue]
        · simp [hop]

/-- Settles O48: a free byte is listed in its place; a taken one and a handler outside the eight leave the table. -/
theorem registerKeepsTheFirstHandler : Obligations.RegisterKeepsTheFirstHandler := by
  intro table op
  refine ⟨fun v hfree => ⟨_, register_free hfree v, ?_, fun other hne => ?_⟩,
    fun v w htaken => register_taken htaken v, rfl⟩
  · rw [DispatchTable.lookup_insert hfree, if_pos rfl]
  · rw [DispatchTable.lookup_insert hfree, if_neg hne.symm]

/-- Settles O49: the empty table is canonical and answers nothing, so only first registrations count. -/
theorem builtTableAnswersFirstRegistration : Obligations.BuiltTableAnswersFirstRegistration := by
  intro regs table reported h
  obtain ⟨hwf, hanswers⟩ := buildTable_answers (table := []) rfl h
  exact ⟨hwf, hanswers⟩

/-- Settles O50: both sequences list the two bytes, and listing commutes. -/
theorem registrationOrderDoesNotMatter : Obligations.RegistrationOrderDoesNotMatter := by
  intro table op op' v v' hne h h'
  rw [buildTable_two_free hne h h', buildTable_two_free hne.symm h' h]
  rcases Nat.lt_or_gt_of_ne fun heq => hne (BitVec.eq_of_toNat_eq heq) with hlt | hlt
  · rw [DispatchTable.insert_comm_of_lt table hlt]
  · rw [DispatchTable.insert_comm_of_lt table hlt]

/-- Settles O7: a byte has no entry exactly when the default table does not list it. -/
theorem unregisteredBytesAreIllegal : Obligations.UnregisteredBytesAreIllegal :=
  fun _ => DispatchTable.lookup_eq_none_iff

end Sys2Proof

/-! ### Encoding and decoding undo each other

Operand bytes are read back as they were laid out, and a table in canonical form answers the opcode byte it gives an
instruction value with that value; so `decode` undoes `encodeIn` (R50 to R57), and what decodes was laid out so. -/

namespace Sys2Proof

open Sys2Proof.Machine

/-- No operand byte of an instruction is lost between the term and its parts. -/
theorem Instr.rebuild (i : Instr) : Laws.Rebuild.Statement i := by
  cases i with
  | incZp => exact Laws.Rebuild.incZp _
  | incZpi => exact Laws.Rebuild.incZpi _ _
  | incAbs => exact Laws.Rebuild.incAbs _ _
  | incAbsi => exact Laws.Rebuild.incAbsi _ _ _
  | decZp => exact Laws.Rebuild.decZp _
  | decZpi => exact Laws.Rebuild.decZpi _ _
  | decAbs => exact Laws.Rebuild.decAbs _ _
  | decAbsi => exact Laws.Rebuild.decAbsi _ _ _

@[simp] theorem Instr.operands_mode (i : Instr) : i.operands.mode = i.value.mode := by
  cases i <;> rfl

theorem Operands.ofBytes_bytes_append (o : Operands) (rest : List Byte) :
    Operands.ofBytes o.mode (o.bytes ++ rest) = some (o, rest) := by
  cases o <;> rfl

/-- Under any opcode byte registered for its value, an instruction decodes back. -/
theorem decode_encodeAs {dt : DispatchTable} {op : Byte} {i : Instr} (h : dt.lookup op = some i.value)
    (rest : List Byte) : decode dt (encodeAs op i ++ rest) = .ok (i, rest) := by
  have hbytes : Operands.ofBytes i.value.mode (i.operands.bytes ++ rest) = some (i.operands, rest) := by
    rw [← Instr.operands_mode, Operands.ofBytes_bytes_append]
  obtain ⟨hbuild, _⟩ := i.rebuild
  rw [encodeAs, List.cons_append, decode_ok h hbytes, hbuild]

/-- What decodes is a registered opcode byte, the operand bytes of its mode, and the rest. -/
theorem encodeAs_of_decode {dt : DispatchTable} {bytes rest : List Byte} {i : Instr}
    (h : decode dt bytes = .ok (i, rest)) : ∃ op, dt.lookup op = some i.value ∧ bytes = encodeAs op i ++ rest := by
  cases bytes with
  | nil => cases h
  | cons op bytes =>
    cases hl : dt.lookup op with
    | none => simp [decode_illegal hl] at h
    | some v =>
      obtain ⟨hb, _⟩ | ⟨o, rest', hb, hm, rfl⟩ := Operands.ofBytes_cases v.mode bytes
      · simp [decode_truncated hl hb] at h
      · obtain ⟨rfl, rfl⟩ : Instr.ofOperands v.operation o = i ∧ rest' = rest := by
          simpa [decode_ok hl hb] using h
        exact ⟨op, by simpa [hm] using hl, by simp [encodeAs]⟩

theorem encodeIn_eq_some_iff {dt : DispatchTable} {i : Instr} {bytes : List Byte} :
    encodeIn dt i = some bytes ↔ ∃ op, dt.opcodeOf i.value = some op ∧ encodeAs op i = bytes :=
  Option.map_eq_some_iff

/-- Settles O2: an encoding is the opcode byte a table lists for the value, and a canonical table answers what it
lists. -/
theorem decodeUndoesEncodeOnAnyTable : Obligations.DecodeUndoesEncodeOnAnyTable := by
  intro dt i hwf
  constructor
  · rw [Instr.wf, ← DispatchTable.opcodeOf_isSome, ← Option.isSome_iff_exists, encodeIn, Option.isSome_map]
  · intro bytes rest h
    obtain ⟨op, hop, rfl⟩ := encodeIn_eq_some_iff.1 h
    exact decode_encodeAs (DispatchTable.lookup_of_mem hwf (DispatchTable.mem_of_opcodeOf hop)) rest

/-! #### The default table -/

theorem defaultTable_lookup_defaultOpcode (v : InstrValue) : defaultTable.lookup (defaultOpcode v) = some v := by
  obtain ⟨operation, mode⟩ := v
  cases operation <;> cases mode <;> rfl

/-- The default table lists each instruction value under its default opcode byte only. -/
theorem eq_defaultOpcode_of_lookup {op : Byte} {v : InstrValue} (h : defaultTable.lookup op = some v) :
    op = defaultOpcode v := by
  have hlisted : ∀ e ∈ defaultTable, e.1 = defaultOpcode e.2 := by decide
  exact hlisted _ (DispatchTable.mem_of_lookup h)

/-- Settles O1: the default opcode byte is registered for its value. -/
theorem decodeUndoesEncode : Obligations.DecodeUndoesEncode :=
  fun i rest => decode_encodeAs (defaultTable_lookup_defaultOpcode i.value) rest

/-- Settles O3: decoding splits the bytes at the operand bytes; the default table has one opcode byte for the value. -/
theorem encodeUndoesDecode : Obligations.EncodeUndoesDecode := by
  refine ⟨fun dt bytes i rest h => encodeAs_of_decode h, fun bytes i rest h => ?_⟩
  obtain ⟨op, hl, rfl⟩ := encodeAs_of_decode h
  rw [eq_defaultOpcode_of_lookup hl, encode]

/-- Settles O5: each example is the encoding of its instruction, which decodes back. -/
theorem syntaxTableExamplesDecode : Obligations.SyntaxTableExamplesDecode :=
  ⟨decodeUndoesEncode (.incZp 0x10) [], decodeUndoesEncode (.incZpi 0x55 0xB0) [],
    decodeUndoesEncode (.incAbs 0x34 0x12) [], decodeUndoesEncode (.incAbsi 0x34 0x12 0xFF) [],
    decodeUndoesEncode (.decZp 0x55) [], decodeUndoesEncode (.decZpi 0x55 0xB0) [],
    decodeUndoesEncode (.decAbs 0x34 0x12) [], decodeUndoesEncode (.decAbsi 0x34 0x12 0xFF) []⟩

/-- Settles O6: opcode byte and operand bytes of each instruction, laid out by definition. -/
theorem formatsOfTheDefaultTable : Obligations.FormatsOfTheDefaultTable :=
  ⟨fun _ => ⟨rfl, rfl⟩, fun _ _ => ⟨rfl, rfl⟩, fun _ _ => ⟨rfl, rfl⟩, fun _ _ _ => ⟨rfl, rfl⟩⟩

end Sys2Proof

/-! ### What every tick leaves

Whatever the outcome, a tick leaves a state: memory with at most one write, a count it can report, and the opcode fetch
at the head of at most six transactions (R36, R79, R113, R143). The invariant and the bounds are read off from this. -/

namespace Sys2Proof.Machine

open Sys2Proof.Claims Sys2Proof.Safety

/-- What the state `u` left by a tick at `s` holds, whether the tick completed or not. -/
structure TickLeaves (s u : State) : Prop where
  memory : u.mem = s.mem ∨ ∃ addr v, u.mem = s.mem.write addr v
  count : u.cycles.toNat ∈ [0, 5, 6, 7]
  transactions : u.trace.length ≤ 6
  opcodeFetch : u.trace.head? = some (.read s.pc (if s.busFails then none else some (s.mem.read s.pc)))

section

variable (s : State) (n : Nat)

@[simp] theorem fetchEvents_length : (fetchEvents s n).length = n := by
  simp [fetchEvents]

@[simp] theorem fetchEvents_head? : (fetchEvents s (1 + n)).head? = some (.read s.pc (some (s.mem.read s.pc))) := by
  simp [fetchEvents, Nat.add_comm 1, List.range_succ_eq_map]

/-- The transactions of the first `n` fetches of a tick. -/
@[simp] theorem fetchedBy_beginTick_trace : (s.beginTick.fetchedBy n).trace = fetchEvents s n := by
  rw [State.fetchedBy_trace]
  rfl

end

theorem Mode.operandBytes_le (m : Mode) : m.operandBytes ≤ 3 := by
  cases m <;> decide

theorem modeCycles_toNat_mem (m : Mode) : (modeCycles m).toNat ∈ [5, 6, 7] := by
  cases m <;> decide

/-- The handler body leaves memory with the ALU's answer written at the effective address. -/
@[simp] theorem handled_mem (operation : Operation) (m : Mode) (ea : Word) (s : State) :
    (handled operation m ea s).mem = s.mem.write ea (alu operation (s.mem.read ea)) := rfl

/-- Every tick ends, and what it leaves was made by delivered fetches and at most one read and one write behind them. -/
theorem step_leaves (s : State) : ∃ u, stateAfter (step s) = some u ∧ TickLeaves s u := by
  cases hbus : s.busFails with
  | true => exact ⟨_, by rw [step_fetchFailed s hbus]; rfl, .inl (by simp), by simp, by simp, by simp [hbus]⟩
  | false =>
    rcases step_cases s with ⟨hf, _⟩ | ⟨_, _, hs⟩ | ⟨v, _, hcases⟩
    · simp [hbus] at hf
    · exact ⟨_, by rw [hs]; rfl, .inl (by simp), by simp, by simp, by simp [hbus]⟩
    · have hbytes := Mode.operandBytes_le v.mode
      rcases hcases with ⟨k, hpos, _, _, hs⟩ | ⟨_, hs⟩ | ⟨_, hs⟩ | ⟨_, hs⟩
      · obtain ⟨j, rfl⟩ := Nat.exists_eq_add_of_le hpos
        refine ⟨_, by rw [hs]; rfl, .inl (by simp), by simp, ?_, by simp [hbus, List.head?_append]⟩
        simp
        omega
      · refine ⟨_, by rw [hs]; rfl, .inl (by simp), by simp, ?_, by simp [hbus, List.head?_append]⟩
        simp
        omega
      · refine ⟨_, by rw [hs]; rfl, .inr ⟨_, _, by simp; rfl⟩, by simp, ?_, by simp [hbus, List.head?_append]⟩
        simp
        omega
      · refine ⟨_, by rw [hs]; rfl, .inr ⟨_, _, by simp; rfl⟩, ?_, ?_, by simp [hbus, List.head?_append]⟩
        · exact List.mem_cons_of_mem _ (modeCycles_toNat_mem v.mode)
        · simp [dataEvents]
          omega

/-- Settles O36: one of the facts about the state a tick leaves. -/
theorem atMostSixTransactions : Obligations.AtMostSixTransactions := by
  intro s
  obtain ⟨u, hu, hleaves⟩ := step_leaves s
  exact ⟨u, hu, hleaves.transactions⟩

/-- Settles O57: a write keeps memory canonical, and no tick changes the table. -/
theorem everyTickKeepsTheInvariant : Obligations.EveryTickKeepsTheInvariant := by
  intro s u hinv hu
  obtain ⟨u', hu', hleaves⟩ := step_leaves s
  obtain rfl : u' = u := Option.some.inj (hu'.symm.trans hu)
  obtain ⟨hdt, _⟩ := dispatchTableIsImmutable s u' hu
  refine ⟨?_, hdt ▸ hinv.table, hleaves.count, hleaves.transactions⟩
  rcases hleaves.memory with hmem | ⟨addr, v, hmem⟩
  · exact hmem ▸ hinv.mem
  · exact hmem ▸ Memory.wf_write hinv.mem addr v

/-- Settles O56: reset lists no memory cell, and the default table is in rising order. -/
theorem resetMeetsTheInvariant : Obligations.ResetMeetsTheInvariant where
  mem := Memory.wf_reset
  table := by decide
  cycles := by decide
  transactions := Nat.zero_le 6

/-- Settles O51: the fields are those `INIT` gives, and the first tick's first transaction is its opcode fetch. -/
theorem constructionProducesInit : Obligations.ConstructionProducesInit := by
  intro init dt busCanFail mem answers s
  obtain ⟨u, hu, hleaves⟩ := step_leaves s
  exact ⟨⟨rfl, rfl, rfl, rfl, rfl, rfl, rfl, rfl⟩, u, hu, hleaves.opcodeFetch⟩

/-- Settles O52: the reset state by definition. -/
theorem modelsChoiceOfResetValues : Obligations.ModelsChoiceOfResetValues :=
  ⟨rfl, rfl, rfl, rfl, rfl, rfl, rfl, rfl⟩

/-- Settles O32: a completed tick reports the count of its mode; a transaction fails only if `BUS_CAN_FAIL`. -/
theorem outcomeIsOneOfThree : Obligations.OutcomeIsOneOfThree := by
  intro s
  have hcan : ∀ {n}, s.busFailsAfter n = true → s.busCanFail = true := fun h => by
    simp only [State.busFailsAfter, Bool.and_eq_true] at h
    exact h.1.1
  rcases step_cases s with ⟨hf, hs⟩ | ⟨_, _, hs⟩ | ⟨v, _, hcases⟩
  · exact .inr (.inr ⟨hcan hf, _, _, _, hs⟩)
  · exact .inr (.inl ⟨_, _, _, hs⟩)
  · rcases hcases with ⟨_, _, _, hf, hs⟩ | ⟨hf, hs⟩ | ⟨hf, hs⟩ | ⟨_, hs⟩
    · exact .inr (.inr ⟨hcan hf, _, _, _, hs⟩)
    · exact .inr (.inr ⟨hcan hf, _, _, _, hs⟩)
    · exact .inr (.inr ⟨hcan hf, _, _, _, hs⟩)
    · exact .inl ⟨_, hs, modeCycles_toNat_mem v.mode⟩

end Sys2Proof.Machine

/-! ### The canonical form of memory

A canonical memory lists exactly the bytes it reads that differ from an unlisted one; so what it reads determines it. -/

namespace Sys2Proof.Machine

/-- A cell of a canonical memory is listed exactly when its byte is read there and is no unlisted one. -/
theorem Memory.mem_iff_read {m : Memory} (hwf : Memory.wf m = true) (addr : Word) (b : Byte) :
    (addr.toNat, b) ∈ m ↔ b ≠ Memory.unlisted ∧ Memory.read m addr = b := by
  rw [Memory.wf_iff] at hwf
  obtain ⟨hpair, hcells⟩ := hwf
  induction m with
  | nil => simp [Memory.read, eq_comm]
  | cons cell rest ih =>
    obtain ⟨k, b'⟩ := cell
    obtain ⟨hlt, hpair⟩ := List.pairwise_cons.1 hpair
    obtain ⟨⟨_, hb'⟩, hcells⟩ := List.forall_mem_cons.1 hcells
    rw [List.mem_cons, Memory.read]
    split
    · rename_i hk
      have hrest : (addr.toNat, b) ∉ rest := fun h => absurd (hlt _ h) (by simp [hk])
      simp only [hrest, or_false, Prod.mk.injEq, hk, true_and]
      exact ⟨fun hb => ⟨hb ▸ hb', hb.symm⟩, fun h => h.2.symm⟩
    · rename_i hk
      simp [Ne.symm hk, ih hpair hcells]

/-- Settles O58: both lists are strictly rising, and they list the same cells. -/
theorem memoriesThatReadAlikeAreEqual : Obligations.MemoriesThatReadAlikeAreEqual := by
  intro m m' hwf hwf' hread
  obtain ⟨hpair, hcells⟩ := (Memory.wf_iff m).1 hwf
  obtain ⟨hpair', hcells'⟩ := (Memory.wf_iff m').1 hwf'
  have hbelow : ∀ k b, k < 65536 → ((k, b) ∈ m ↔ (k, b) ∈ m') := fun k b hk => by
    have haddr : (BitVec.ofNat 16 k).toNat = k := Nat.mod_eq_of_lt hk
    rw [← haddr, Memory.mem_iff_read hwf, Memory.mem_iff_read hwf', hread]
  have : Std.Irrefl fun c c' : Host.Cell => c.1 < c'.1 := ⟨fun _ => Nat.lt_irrefl _⟩
  have : Std.Antisymm fun c c' : Host.Cell => c.1 < c'.1 := ⟨fun _ _ h h' => absurd h (Nat.lt_asymm h')⟩
  refine hpair.eq_of_mem_iff hpair' fun c => ⟨fun hc => ?_, fun hc => ?_⟩
  · exact (hbelow c.1 c.2 (hcells c hc).1).1 hc
  · exact (hbelow c.1 c.2 (hcells' c hc).1).2 hc

/-- A cell written and then given its old byte back leaves a canonical memory the same data. -/
theorem Memory.write_write_read {m : Memory} (hwf : Memory.wf m = true) (addr : Word) (v : Byte) :
    Memory.write (Memory.write m addr v) addr (Memory.read m addr) = m := by
  refine memoriesThatReadAlikeAreEqual _ _ (Memory.wf_write (Memory.wf_write hwf addr v) addr _) hwf fun other => ?_
  by_cases h : other = addr
  · rw [h, Memory.read_write_same]
  · rw [Memory.read_write_other _ h, Memory.read_write_other _ h]

end Sys2Proof.Machine

/-! ### The ALU and the flags

Both ALU operations count modulo 256, so each undoes the other (R96); NEGATIVE and ZERO are read off the byte alone and
exclude each other (R95). -/

namespace Sys2Proof.Machine

open Sys2Proof.Claims

theorem alu_inc_alu_dec (v : Byte) : alu .inc (alu .dec v) = v := BitVec.sub_add_cancel v 1

theorem alu_dec_alu_inc (v : Byte) : alu .dec (alu .inc v) = v := BitVec.add_sub_cancel v 1

/-- Settles O14: both counts as numbers, and the two inverses. -/
theorem aluCountsModulo256 : Obligations.AluCountsModulo256 := by
  intro v
  refine ⟨?_, ?_, alu_inc_alu_dec v, alu_dec_alu_inc v⟩
  · rw [alu_inc_eq_plusOne, plusOne, BitVec.toNat_ofNat, Nat.mod_mod]
  · rw [alu_dec_eq_minusOne, minusOne, BitVec.toNat_ofNat, Nat.mod_mod]

section

variable (r : Byte) (p : Flags)

/-- NEGATIVE is bit 7: the byte is at least 128. -/
theorem updateNegativeZero_n_toNat : (updateNegativeZero r p).n = decide (128 ≤ r.toNat) := by
  rw [updateNegativeZero_n, ← BitVec.msb_eq_getLsbD_last r, BitVec.msb_eq_decide]

theorem updateNegativeZero_z_toNat : (updateNegativeZero r p).z = decide (r.toNat = 0) := by
  simp [BitVec.toNat_eq]

theorem updateNegativeZero_not_both : ((updateNegativeZero r p).n && (updateNegativeZero r p).z) = false := by
  rw [updateNegativeZero_n_toNat, updateNegativeZero_z_toNat]
  by_cases hr : r.toNat = 0 <;> simp [hr]

end

/-- Settles O13: the policy as numbers; the last transaction of a completed tick is the write its flags come from. -/
theorem flagPolicyOfTheByteWritten : Obligations.FlagPolicyOfTheByteWritten := by
  refine ⟨fun r p => ⟨updateNegativeZero_n_toNat r p, updateNegativeZero_z_toNat r p,
    updateNegativeZero_not_both r p⟩, fun s t h => ?_⟩
  obtain ⟨v, _, rfl⟩ := step_next h
  generalize resolve (operandsAt s v.mode) = ea
  refine ⟨ea, alu v.operation (s.mem.read ea), fetchEvents s (1 + v.mode.operandBytes) ++
    [.read ea (some (s.mem.read ea))], ?_, ?_, ?_⟩
  · simp [dataEvents]
  · simp
  · simp [handled]

/-- Settles O16: the flags of a completed tick are the policy's, which never sets both. -/
theorem completedTickNeverNegativeAndZero : Obligations.CompletedTickNeverNegativeAndZero := by
  intro s t h
  obtain ⟨_, new, _, _, _, hp⟩ := flagPolicyOfTheByteWritten.2 s t h
  rw [hp, ← Bool.and_eq_true, updateNegativeZero_not_both]
  exact Bool.false_ne_true

/-- Settles O15: a tick started with other flags, whatever its outcome. -/
theorem noTickReadsAFlag : Obligations.NoTickReadsAFlag :=
  fun s q => step_replaceFlags q s

/-- Settles O38: putting values into `X`, `Y` and `SP` is a change of the four registers that keeps `A`. -/
theorem indexRegistersAndStackPointerAreInert : Obligations.IndexRegistersAndStackPointerAreInert :=
  fun s x y sp => step_mapRegs ⟨id, fun _ => x, fun _ => y, fun _ => sp⟩ s

/-- Settles O39: the start of a tick clears both outputs, and a tick reads nothing earlier but `PC`. -/
theorem outputsAreNeverRead : Obligations.OutputsAreNeverRead := by
  intro s trace cycles
  have hbegin : State.beginTick { s with trace := trace, cycles := cycles } = s.beginTick := rfl
  rw [step, step, hbegin]

end Sys2Proof.Machine

/-! ### The eight meanings

Each is the handler body at the effective address of its operands: it completes on a bus that answers its two
transactions, changes what `Rmw` says and nothing else, and stops there on every other bus (R78, R100, R105). -/

namespace Sys2Proof.Machine

open Sys2Proof.Claims

theorem exec_delivered {s : State} (hbus : s.busDelivers 2 = true) (i : Instr) :
    exec i s = .next (handled i.value.operation i.value.mode (resolve i.operands) s) :=
  (exec_eq_handler i s).trans (handler_delivered hbus _ _ _)

/-- Completion of any instruction, for any numeric reading `f` of its ALU operation. -/
theorem execDone_of_busDelivers {i : Instr} {s : State} {f : Nat → Nat} (hbus : s.busDelivers 2 = true)
    (hf : ∀ old, alu i.value.operation old = BitVec.ofNat 8 (f old.toNat)) :
    ExecDone i s (modeCycles i.value.mode).toNat (resolve i.operands) f := by
  rw [ExecDone, ← hf]
  exact ⟨_, exec_delivered hbus i, handled_rmw _ _ _ s, handled_pc _ _ _ _,
    handled_trace _ _ _ _⟩

/-- Settles O27: the increment at the effective address of each mode. -/
theorem incMeaningsComplete : Obligations.IncMeaningsComplete := by
  intro s hbus
  refine ⟨fun zp => ?_, fun base index => ?_, fun low high => ?_, fun low high index => ?_⟩
  · exact resolve_zp zp ▸ execDone_of_busDelivers hbus alu_inc_eq_plusOne
  · exact resolve_zpi base index ▸ execDone_of_busDelivers hbus alu_inc_eq_plusOne
  · exact resolve_abs low high ▸ execDone_of_busDelivers hbus alu_inc_eq_plusOne
  · exact resolve_absi low high index ▸ execDone_of_busDelivers hbus alu_inc_eq_plusOne

/-- Settles O28: the decrement at the effective address of each mode. -/
theorem decMeaningsComplete : Obligations.DecMeaningsComplete := by
  intro s hbus
  refine ⟨fun zp => ?_, fun base index => ?_, fun low high => ?_, fun low high index => ?_⟩
  · exact resolve_zp zp ▸ execDone_of_busDelivers hbus alu_dec_eq_minusOne
  · exact resolve_zpi base index ▸ execDone_of_busDelivers hbus alu_dec_eq_minusOne
  · exact resolve_abs low high ▸ execDone_of_busDelivers hbus alu_dec_eq_minusOne
  · exact resolve_absi low high index ▸ execDone_of_busDelivers hbus alu_dec_eq_minusOne

/-- Settles O29: what the handler body leaves unchanged. -/
theorem meaningFrame : Obligations.MeaningFrame := by
  intro i s t h
  obtain rfl := exec_next h
  have hrmw := handled_rmw i.value.operation i.value.mode (resolve i.operands) s
  obtain ⟨ha, hx, hy, hsp⟩ := hrmw.registers
  exact ⟨⟨ha, hx, hy, hsp, handled_pc _ _ _ _⟩, hrmw.otherFlags, hrmw.parameters, hrmw.otherCells⟩

/-- Everything `exec` can do: complete on a bus that answers two transactions, and else stop at its address. -/
theorem exec_next_or_busFailure (i : Instr) (s : State) :
    (s.busDelivers 2 = true ∧
      exec i s = .next (handled i.value.operation i.value.mode (resolve i.operands) s)) ∨
    (s.busDelivers 2 = false ∧ ∃ dir after, exec i s = .fault (.busFailure (resolve i.operands) dir after)) := by
  rw [exec_eq_handler]
  have hstops : ∀ {k}, k < 2 → s.busFailsAfter k = true → s.busDelivers 2 = false :=
    fun hk hf => Bool.eq_false_iff.2 fun hd => State.not_busFailsAfter_of_busDelivers hk hd hf
  rcases handler_cases i.value.operation i.value.mode (resolve i.operands) s with ⟨hd, h⟩ | ⟨hf, h⟩ | ⟨hf, h⟩
  · exact .inl ⟨hd, h⟩
  · exact .inr ⟨hstops (by omega) hf, _, _, h⟩
  · exact .inr ⟨hstops (by omega) hf, _, _, h⟩

/-- Settles O30: completing and stopping exclude each other, and the bus decides between them. -/
theorem meaningsStopOnlyOnBusFailure : Obligations.MeaningsStopOnlyOnBusFailure := by
  intro i s
  rcases exec_next_or_busFailure i s with ⟨hd, h⟩ | ⟨hd, dir, after, h⟩
  · simp [h, hd]
  · simp [h, hd]

/-- An instruction undoes the one before it at the same operands when its ALU operation does. -/
theorem exec_undoes {first second : Operation} (hundo : ∀ v, alu second (alu first v) = v) {o : Operands}
    {s t u : State} (hwf : Memory.wf s.mem = true) (h : exec (Instr.ofOperands first o) s = .next t)
    (h' : exec (Instr.ofOperands second o) t = .next u) : u.mem = s.mem := by
  obtain rfl := exec_next h
  obtain rfl := exec_next h'
  simp [hundo, Memory.write_write_read hwf]

/-- Settles O31: the ALU operations undo each other. -/
theorem incAndDecUndoEachOther : Obligations.IncAndDecUndoEachOther :=
  fun _ _ _ _ hwf => ⟨exec_undoes alu_dec_alu_inc hwf, exec_undoes alu_inc_alu_dec hwf⟩

end Sys2Proof.Machine

/-! ### The tick of a decoded instruction

The fetches advance `PC`, list their reads, use up answers and do nothing else (R85); so the bytes at `PC` that decode
to an instruction are what its handler body is given. -/

namespace Sys2Proof.Machine

open Sys2Proof.Claims

/-- All that `n` delivered fetches change. -/
theorem State.fetchedBy_eq (s : State) (n : Nat) : s.fetchedBy n = { s with
    pc := s.pc + BitVec.ofNat 16 n
    trace := s.trace ++ fetchEvents s n
    answers := s.answers.drop n } := by
  induction n with
  | zero => simp [State.fetchedBy, fetchEvents]
  | succ n ih =>
    rw [State.fetchedBy_succ, ih]
    simp [State.fetched, State.issue, State.advancePc, fetchEvents, codeByte, List.range_succ, BitVec.ofNat_add,
      BitVec.add_assoc]

theorem operandsFrom_bytes (s : State) (m : Mode) :
    (operandsFrom s m).bytes = (List.range m.operandBytes).map (codeByte s) := by
  cases m <;> simp [operandsFrom, Operands.bytes, Mode.operandBytes, codeByte, List.range_succ]

/-- Settles O11: the operand bytes at `PC`, behind as many delivered fetches. -/
theorem resolverReadsOperandBytes : Obligations.ResolverReadsOperandBytes :=
  fun m s hbus => ⟨_, _, fetchOperands_delivered s hbus, operandsFrom_bytes s m, State.fetchedBy_eq s _⟩

/-- An instruction laid out at `PC` has the opcode byte there and the operand bytes behind it. -/
theorem codeBytes_of_encodeAs {s : State} {op : Byte} {i : Instr} {rest : List Byte}
    (h : [codeByte s 0, codeByte s 1, codeByte s 2, codeByte s 3] = encodeAs op i ++ rest) :
    codeByte s 0 = op ∧ operandsAt s i.value.mode = i.operands := by
  cases i <;> simp_all [encodeAs, Instr.operands, Operands.bytes, operandsAt, Instr.value]

/-- Settles O8: the bytes that decode are the opcode and the operands the tick finds, and its handler body is the
meaning of the instruction. -/
theorem stepRunsDecodedInstruction : Obligations.StepRunsDecodedInstruction := by
  intro s i rest hdecode hbus
  obtain ⟨op, hl, hbytes⟩ := encodeAs_of_decode hdecode
  obtain ⟨rfl, hoperands⟩ := codeBytes_of_encodeAs hbytes
  rw [codeByte_zero] at hl
  rw [step_handler s hl hbus, operandsFrom_fetched_beginTick, hoperands, State.fetchedBy_eq, ← exec_eq_handler]
  rfl

/-! #### A placed word -/

/-- A bus that announces no failure answers everything. -/
theorem State.busDelivers_of_answers_nil {s : State} (h : s.answers = []) (n : Nat) : s.busDelivers n = true := by
  simp [State.busDelivers, h]

section

variable (s : State) (nbits w : Nat)

/-- A placed word leaves the dispatch table. -/
theorem withFetchWord_dt : (s.withFetchWord nbits w).dt = s.dt := rfl

/-- A placed word drops the announced failures. -/
theorem withFetchWord_answers : (s.withFetchWord nbits w).answers = [] := rfl

/-- The four bytes at `PC` are those of the placed word: four different addresses, also across the top of memory. -/
theorem withFetchWord_codeBytes :
    [codeByte (s.withFetchWord nbits w) 0, codeByte (s.withFetchWord nbits w) 1,
      codeByte (s.withFetchWord nbits w) 2, codeByte (s.withFetchWord nbits w) 3] = tableBytes nbits w := by
  simp [codeByte, State.withFetchWord, tableBytes, Memory.read_write]

end

/-- The instruction of a table word is what its bytes decode to. -/
theorem decode_of_decodeTableWord {nbits w : Nat} {i : Instr} (h : decodeTableWord nbits w = some i) :
    ∃ rest, decode defaultTable (tableBytes nbits w) = .ok (i, rest) := by
  unfold decodeTableWord at h
  split at h
  · obtain rfl := Option.some.inj h
    exact ⟨_, ‹_›⟩
  · cases h

/-- Settles O9: the placed bytes decode to the instruction, and the bus answers its fetch and its two transactions. -/
theorem placedWordRunsNext : Obligations.PlacedWordRunsNext := by
  intro s nbits w i hdt hword
  obtain ⟨rest, hdecode⟩ := decode_of_decodeTableWord hword
  have hstep := stepRunsDecodedInstruction (s.withFetchWord nbits w) i rest
    (by rw [withFetchWord_codeBytes, withFetchWord_dt, hdt, hdecode])
    (State.busDelivers_of_answers_nil (withFetchWord_answers s nbits w) _)
  have hbus : ∀ n, (s.withFetchWord nbits w).answers.drop n = [] := fun n => by
    rw [withFetchWord_answers, List.drop_nil]
  rw [hstep]
  exact ⟨_, _, exec_delivered (State.busDelivers_of_answers_nil (hbus _) 2) i,
    exec_delivered (State.busDelivers_of_answers_nil (hbus _) 2) i, rfl, rfl⟩

end Sys2Proof.Machine

/-! ### Completed ticks

A completed tick did what `Rmw` says of the state it started in, at the address its operand bytes give. -/

namespace Sys2Proof.Machine

open Sys2Proof.Claims Sys2Proof.Safety

theorem step_next_rmw {s t : State} (h : step s = .next t) :
    ∃ v, s.dt.lookup (codeByte s 0) = some v ∧
      Rmw s t (resolve (operandsAt s v.mode)) (alu v.operation (s.mem.read (resolve (operandsAt s v.mode))))
        (modeCycles v.mode).toNat := by
  obtain ⟨v, hl, rfl⟩ := step_next h
  exact ⟨v, hl, rmw_of_tickFetched (by simpa using handled_rmw v.operation v.mode _ (tickFetched s v.mode))⟩

/-- The two zero page modes reach no address above `0x00FF` (R37). -/
theorem resolve_zeroPage_toNat_lt (s : State) {m : Mode} (h : m = .zp ∨ m = .zpi) :
    (resolve (operandsAt s m)).toNat < 256 := by
  rcases h with rfl | rfl
  · rw [operandsAt, resolve_zp_toNat]
    exact (codeByte s 1).isLt
  · rw [operandsAt, resolve_zpi_toNat]
    exact Nat.mod_lt _ (by decide)

/-- Settles O12: the one cell a completed tick writes lies in page zero. -/
theorem zeroPageModesWriteOnlyPageZero : Obligations.ZeroPageModesWriteOnlyPageZero := by
  intro s t operation m hl hm hs addr haddr
  obtain ⟨v, hv, hrmw⟩ := step_next_rmw hs
  obtain rfl : ⟨operation, m⟩ = v := Option.some.inj (hl.symm.trans hv)
  have hpage := resolve_zeroPage_toNat_lt s hm
  refine hrmw.otherCells addr fun heq => ?_
  rw [heq] at haddr
  exact absurd hpage (Nat.not_lt.2 haddr)

/-- Settles O40: the second tick starts with the read of its opcode, in the memory the first one left. -/
theorem nextFetchSeesTheStore : Obligations.NextFetchSeesTheStore := by
  intro s t u v hl hs ht
  obtain ⟨w, hw, hrmw⟩ := step_next_rmw hs
  obtain rfl : v = w := Option.some.inj (hl.symm.trans hw)
  obtain ⟨v', _, rfl⟩ := step_next ht
  have hfirst : (t.mem.read t.pc) = if t.pc = resolve (operandsAt s v.mode) then
      alu v.operation (s.mem.read (resolve (operandsAt s v.mode))) else s.mem.read t.pc := by
    split
    · rename_i hpc
      rw [hpc, hrmw.cell]
    · rename_i hpc
      exact hrmw.otherCells _ hpc
  simp [← hfirst, List.head?_append]

/-! #### Runs of completed ticks -/

theorem elapsedCycles_succ_of_next {s t : State} (h : step s = .next t) (n : Nat) :
    elapsedCycles (n + 1) s = (elapsedCycles n t).map (t.cycles.toNat + ·) := by
  simp [elapsedCycles, h]

theorem elapsedCycles_succ_of_fault {s : State} {r : Fault} (h : step s = .fault r) (n : Nat) :
    elapsedCycles (n + 1) s = none := by
  simp [elapsedCycles, h]

/-- A tick completes with a count of 5, 6 or 7, or it stops. -/
theorem step_next_or_fault (s : State) :
    (∃ t, step s = .next t ∧ t.cycles.toNat ∈ [5, 6, 7]) ∨ ∃ r, step s = .fault r := by
  rcases outcomeIsOneOfThree s with h | ⟨_, _, _, h⟩ | ⟨_, _, _, _, h⟩
  · exact .inl h
  · exact .inr ⟨_, h⟩
  · exact .inr ⟨_, h⟩

/-- Settles O59: by induction on the number of ticks; each adds 5, 6 or 7, and one that stops ends the sum and the
run. -/
theorem elapsedCyclesOfARun : Obligations.ElapsedCyclesOfARun := by
  intro n
  induction n with
  | zero => exact fun s => ⟨by simp [elapsedCycles], by simp [elapsedCycles, completes_zero]⟩
  | succ n ih =>
    intro s
    rcases step_next_or_fault s with ⟨t, hs, hcount⟩ | ⟨r, hs⟩
    · obtain ⟨hbounds, hruns⟩ := ih t
      rw [elapsedCycles_succ_of_next hs]
      constructor
      · intro total htotal
        obtain ⟨rest, hrest, rfl⟩ := Option.map_eq_some_iff.1 htotal
        have := hbounds rest hrest
        simp only [List.mem_cons, List.not_mem_nil, or_false] at hcount
        omega
      · simpa [completes_succ, hs] using hruns
    · rw [elapsedCycles_succ_of_fault hs]
      simp [completes_succ, hs]

/-- Settles O60: by induction on the number of ticks; each keeps what `Rmw` says. -/
theorem runsKeepWhatNoInstructionWrites : Obligations.RunsKeepWhatNoInstructionWrites := by
  intro n
  induction n with
  | zero =>
    intro s t h
    obtain rfl := (completes_zero s t).1 h
    simp
  | succ n ih =>
    intro s t h
    obtain ⟨u, hs, hrun⟩ := (completes_succ n s t).1 h
    obtain ⟨_, _, hrmw⟩ := step_next_rmw hs
    obtain ⟨ha, hx, hy, hsp⟩ := hrmw.registers
    obtain ⟨hv, hb, hd, hi, hc⟩ := hrmw.otherFlags
    obtain ⟨hdt, hbus⟩ := hrmw.parameters
    simpa only [ha, hx, hy, hsp, hv, hb, hd, hi, hc, hdt, hbus] using ih u t hrun

end Sys2Proof.Machine

/-! ### Ticks that stop

One lemma per transaction that can fail gives the state left there (R119 to R121). -/

namespace Sys2Proof.Machine

open Sys2Proof.Claims Sys2Proof.Safety

/-- A handler body whose read fails has issued that read and nothing else. -/
theorem handler_readFailed {s : State} (h : s.busFailsAfter 0 = true) (operation : Operation) (m : Mode) (ea : Word) :
    handler operation m ea s = .fault (.busFailure ea .read (s.issue (.read ea none)).dropCycles) := by
  rw [State.busFailsAfter_zero] at h
  rw [handler, memRead_failed h]

/-- A handler body whose write fails leaves a free value in the addressed cell. -/
theorem handler_writeFailed {s : State} (h : s.busFailsAfter 1 = true) (operation : Operation) (m : Mode) (ea : Word) :
    handler operation m ea s = .fault (.busFailure ea .write
      (((s.issue (.read ea (some (s.mem.read ea)))).issue
        (.write ea (alu operation (s.mem.read ea)) false)).scramble ea).dropCycles) := by
  have hwrite : (s.issue (.read ea (some (s.mem.read ea)))).busFailsAfter 0 = true :=
    State.busFailsAfter_tail h rfl rfl
  rw [State.busFailsAfter_zero] at hwrite
  simp only [handler, memRead_delivered (State.busFails_of_busFailsAfter h), memWrite_failed hwrite]

/-- A tick that fails behind its fetches is the handler body on the fetched state, which meets that failure. -/
theorem step_failsBehindFetches {s : State} {v : InstrValue} (hl : s.dt.lookup (codeByte s 0) = some v) {n : Nat}
    (h : s.busFailsAfter (1 + v.mode.operandBytes + n) = true) :
    step s = handler v.operation v.mode (resolve (operandsAt s v.mode)) (tickFetched s v.mode) ∧
      (tickFetched s v.mode).busFailsAfter n = true := by
  have hfetches : s.busDelivers (1 + v.mode.operandBytes) = true := by
    rcases s.busDelivers_or_busFailsAfter (1 + v.mode.operandBytes) with hd | ⟨k, hk, hf⟩
    · exact hd
    · exact absurd hf (State.not_busFailsAfter_of_busFailsAfter (by omega) h)
  rw [codeByte_zero] at hl
  refine ⟨?_, State.busFailsAfter_fetchedBy s.beginTick _ h⟩
  rw [step_handler s hl hfetches, operandsFrom_fetched_beginTick, tickFetched]

/-- Settles O43: only the failed read has been issued. -/
theorem opcodeFetchFailure : Obligations.OpcodeFetchFailure := by
  intro s h
  rw [State.busFailsAfter_zero] at h
  exact ⟨_, step_fetchFailed s h, rfl, ⟨⟨rfl, rfl, rfl, rfl⟩, rfl, rfl, rfl, rfl⟩, rfl⟩

/-- Settles O44: behind the delivered fetches the failed read changes neither `PC` nor anything of the machine. -/
theorem operandOrDataReadFailure : Obligations.OperandOrDataReadFailure := by
  intro s v hl
  constructor
  · intro k hpos hk hf
    obtain ⟨j, rfl⟩ := Nat.exists_eq_add_of_le hpos
    have hpc : s.pc + BitVec.ofNat 16 (1 + j) = s.pc + 1 + BitVec.ofNat 16 j := by
      rw [BitVec.ofNat_add, BitVec.add_assoc]
      rfl
    rw [codeByte_zero] at hl
    rw [Nat.add_comm] at hf
    rw [hpc]
    exact ⟨_, step_operandFailed hl (by omega) hf, by simp, by simp, by simp, by simp, by simp⟩
  · intro hf
    obtain ⟨hs, hread⟩ := step_failsBehindFetches hl (n := 0) hf
    exact ⟨_, hs.trans (handler_readFailed hread _ _ _), by simp, by simp, by simp, by simp, by simp⟩

/-- Settles O45: a failed write reaches the addressed cell only. -/
theorem dataWriteFailure : Obligations.DataWriteFailure := by
  intro s v hl hf
  have hlen : 2 + v.mode.operandBytes = 1 + v.mode.operandBytes + 1 := by omega
  rw [hlen] at hf
  obtain ⟨hs, hwrite⟩ := step_failsBehindFetches hl hf
  refine ⟨_, hs.trans (handler_writeFailed hwrite _ _ _), by simp, by simp, by simp, by simp, fun addr hne => ?_⟩
  simp [Memory.read_write_other _ hne]

/-- The state behind the opcode fetch, no count reported. -/
theorem dropCycles_fetched_beginTick (s : State) : s.beginTick.fetched.dropCycles = { s with
    pc := s.pc + 1
    trace := [.read s.pc (some (codeByte s 0))]
    answers := s.answers.drop 1
    cycles := 0 } := by
  rw [List.drop_one, codeByte_zero]
  rfl

/-- Settles O42: the tick that meets an unregistered byte, and its inversion. -/
theorem illegalOpcodeTick : Obligations.IllegalOpcodeTick := by
  intro s op addr after
  rw [← dropCycles_fetched_beginTick]
  constructor
  · intro h
    refine ⟨?_, step_illegalOpcode h⟩
    rcases s.busDelivers_or_busFailsAfter 1 with hd | ⟨k, hk, hf⟩
    · exact hd
    · obtain rfl : k = 0 := by omega
      rw [step_fetchFailed s (by simpa using hf)] at h
      cases h
  · rintro ⟨hd, hl, rfl, rfl, rfl⟩
    rw [codeByte_zero] at hl ⊢
    exact step_illegal s (State.busFails_of_busDelivers hd) hl

/-- Whatever stopped it, a tick that stops reports no count (R113). -/
theorem step_fault_cycles {s : State} {r : Fault} (h : step s = .fault r) : r.after.cycles = 0 := by
  have hstop : ∀ {r'}, step s = .fault r' → r'.after.cycles = 0 → r.after.cycles = 0 :=
    fun hs hzero => Host.Outcome.fault.inj (hs.symm.trans h) ▸ hzero
  rcases step_cases s with ⟨_, hs⟩ | ⟨_, _, hs⟩ | ⟨v, _, hcases⟩
  · exact hstop hs rfl
  · exact hstop hs rfl
  · rcases hcases with ⟨_, _, _, _, hs⟩ | ⟨_, hs⟩ | ⟨_, hs⟩ | ⟨_, hs⟩
    · exact hstop hs rfl
    · exact hstop hs rfl
    · exact hstop hs rfl
    · cases hs.symm.trans h

/-- Settles O46: each report by definition, and the count of a tick that stops. -/
theorem reportOfAnOutcome : Obligations.ReportOfAnOutcome :=
  ⟨fun _ => ⟨_, rfl, rfl, rfl, rfl⟩, fun _ _ _ => ⟨_, rfl, rfl, rfl, rfl⟩, fun _ _ _ => ⟨_, rfl, rfl, rfl, rfl⟩,
    fun _ _ => step_fault_cycles⟩

end Sys2Proof.Machine

/-! ### The host's side

Registers and flags are set one at a time between ticks (R17, R18), and packed by their masks (R15). -/

namespace Sys2Proof.Machine

/-- What setting an 8-bit register does to each of the four. -/
theorem State.getReg_setReg (s : State) (r other : Reg) (value : Nat) :
    (s.setReg r value).getReg other = if other = r then BitVec.ofNat 8 value else s.getReg other := by
  cases r <;> cases other <;> rfl

/-- Settles O53: `BitVec.ofNat` takes the value modulo the register's width. -/
theorem hostWritesAreMasked : Obligations.HostWritesAreMasked := by
  intro s value
  refine ⟨fun r => ⟨?_, fun other hne => ?_, ?_⟩, BitVec.toNat_ofNat _ _, fun r => ?_, rfl, rfl⟩
  · rw [State.getReg_setReg, if_pos rfl, BitVec.toNat_ofNat]
  · rw [State.getReg_setReg, if_neg hne]
  · cases r <;> exact ⟨rfl, rfl, rfl⟩
  · cases r <;> rfl

section

variable (p : Flags) (f other : Flag) (value : Bool)

/-- What setting a flag does to each of the seven. -/
theorem Flags.get_set : (p.set f value).get other = if other = f then value else p.get other := by
  cases f <;> cases other <;> rfl

theorem Flags.set_get : p.set f (p.get f) = p := by
  cases f <;> rfl

theorem Flags.set_set : (p.set f value).set f value = p.set f value := by
  cases f <;> rfl

/-- A flag contributes its own bit to the packed byte and no other flag's. -/
theorem Flags.masked_getLsbD : (p.masked f).getLsbD other.bit = (p.get f && decide (f = other)) := by
  have hbit : (f.mask).getLsbD other.bit = decide (f = other) := by
    cases f <;> cases other <;> decide
  cases h : p.get f <;> simp [Flags.masked, h, hbit]

/-- Bit 5 of the packed byte is no flag's. -/
theorem bit5_getLsbD : (if value then 0x20 else 0 : Byte).getLsbD f.bit = false := by
  cases value <;> cases f <;> decide

theorem Flags.pack_getLsbD : (p.pack value).getLsbD f.bit = p.get f := by
  simp only [Flags.pack, BitVec.getLsbD_or, Flags.masked_getLsbD, bit5_getLsbD]
  cases f <;> simp

end

/-- Settles O54: the same of the state's flags. -/
theorem flagSettersAreIdempotent : Obligations.FlagSettersAreIdempotent := by
  intro s f value
  refine ⟨?_, fun other hne => ?_, ?_, ?_⟩
  · rw [State.getFlag, State.setFlag, Flags.get_set, if_pos rfl]
  · rw [State.getFlag, State.setFlag, Flags.get_set, if_neg hne, State.getFlag]
  · rw [State.setFlag, State.getFlag, Flags.set_get]
  · simp only [State.setFlag, Flags.set_set]

/-- Settles O55: each flag at its bit whatever the free value of bit 5, and the masks. -/
theorem packedStatusLayout : Obligations.PackedStatusLayout :=
  ⟨fun s f => Flags.pack_getLsbD s.p f _, by decide⟩

end Sys2Proof.Machine
